-- ==== Sys2Proof/Word.lean ====
section
/-! DEFINITION. The two value types of the block: every register and the bus data are 32 bits wide (R8),
and a byte is 8 bits with bits 7..0 (R10). All values are unsigned (R10). -/

namespace Sys2Proof

/-- A 32-bit register, bus data value or bus offset (R8, R115). -/
abbrev Word := BitVec 32

/-- A buffer byte (R10, R53). -/
abbrev Byte := BitVec 8

end Sys2Proof
end

