-- ==== Sys2Proof/Machine/Bits.lean ====
section
/-! DEFINITION. Byte order and bit fields: `BE32`, `BYTES_BE32` (R12) and `lane` (R226). -/

namespace Sys2Proof.Machine

/-- R12: `BE32(b0,b1,b2,b3)`, the big-endian value of 4 bytes. -/
def be32 (b0 b1 b2 b3 : Byte) : Word := b0 ++ b1 ++ b2 ++ b3

/-- R226: `lane(v, k)` is bits `[31-8k : 24-8k]` of v, for k from 0 to 3. -/
def lane (v : Word) (k : Nat) : Byte := v.extractLsb' (24 - 8 * k) 8

/-- R226: `lane(v, k) <- b`; the other lanes keep their bits. -/
def setLane (v : Word) (k : Nat) (b : Byte) : Word :=
  (v &&& ~~~(0x000000FF#32 <<< (24 - 8 * k))) ||| (b.setWidth 32 <<< (24 - 8 * k))

/-- R12: `BYTES_BE32(v)`, the inverse of `BE32`. -/
def bytesBE32 (v : Word) : List Byte := [lane v 0, lane v 1, lane v 2, lane v 3]

/-- The low byte of bus write data (R115: "a 1-byte write uses wdata[7:0]"). -/
def lowByte (v : Word) : Byte := v.extractLsb' 0 8

/-- A flag as a 32-bit value with that flag in bit k. -/
def flagAt (b : Bool) (k : Nat) : Word := (if b then 1#32 else 0#32) <<< k

end Sys2Proof.Machine
end

