-- ==== Sys2Proof/Config.lean ====
section
/-! DEFINITION. What an implementation fixes, and the values the spec leaves free. No constant here has a
value that a proof could see. -/

namespace Sys2Proof.Config

/-- Which of the legal buffer sizes the implementation has. Free. -/
opaque bufBytesIndex : Nat

/-- `P_BUF_BYTES` (R7, OPEN; 92_eei_decisions.md D4): it ranges over exactly the multiples of 4 from 16 to
2^31, one for each residue of the free index. DESIGN CHOICE (log 1). -/
def bufBytes : Nat := 4 * (bufBytesIndex % 536870909) + 16

/-- `P_REG_BASE` (R89): where a system places REG space; no rule reads it (log 18). -/
opaque regBase : Nat

/-- `P_BUF_BASE` (R89): where a system places BUF space; no rule reads it (log 18). -/
opaque bufBase : Nat

/-- The draw for the buffer byte at an offset, at the reset of a given number (R271, U2): one value for each
byte and reset, stable until the byte is written. Free value (log 4). -/
opaque unwrittenByte : Nat → Nat → Byte

/-- The value of the k-th host read of a register in the running command's write set (R279, U1): a separate
draw for each read. Free value (log 7). -/
opaque busyRead : Nat → Word

/-- The hidden 32-bit engine latches after the reset of a given number (R54, U3); the second argument says which
latch. Free value (log 6). -/
opaque resetEngWord : Nat → Nat → Word

/-- The hidden byte index after the reset of a given number (R54, U3), before its bound. Free value (log 6). -/
opaque resetEngIndex : Nat → Nat

end Sys2Proof.Config
end

