-- ==== Sys2Proof/Syntax.lean ====
section
/-! DEFINITION. The instructions: one constructor for each row of spec/opcode_table.json (R2): five commands
and six host transactions. A command has no operand field (R117); a transaction has its offset and, where it
writes, its write data (R115). -/

namespace Sys2Proof

inductive Instr where
  /-- NOP, CMD word 0x00000000 (R113, R151). -/
  | nop
  /-- CRC_RESET, CMD word 0x00000001 (R113, R185). -/
  | crcReset
  /-- CRC_FEED, CMD word 0x00000002 (R113, R186). -/
  | crcFeed
  /-- ENCODE, CMD word 0x00000003 (R113, R201). -/
  | encodeRec
  /-- DECODE, CMD word 0x00000004 (R113, R216). -/
  | decodeRec
  /-- REG_READ32, TXN kind 0x8 (R116, R140). -/
  | regRead32 (off : Word)
  /-- REG_WRITE32, TXN kind 0x9 (R116, R141). -/
  | regWrite32 (off wdata : Word)
  /-- BUF_READ8, TXN kind 0x2 (R116, R147). -/
  | bufRead8 (off : Word)
  /-- BUF_WRITE8, TXN kind 0x3 (R116, R148). -/
  | bufWrite8 (off wdata : Word)
  /-- BUF_READ32, TXN kind 0xA (R116, R149). -/
  | bufRead32 (off : Word)
  /-- BUF_WRITE32, TXN kind 0xB (R116, R150). -/
  | bufWrite32 (off wdata : Word)
deriving DecidableEq, Repr

end Sys2Proof
end

