-- ==== Sys2Proof/WellFormed.lean ====
section
/-! DEFINITION. Static checks. An instruction's operands are 32-bit values by their type (R115), every 32-bit
offset has a defined behaviour (R81), and no mode changes decoding (R118): so every `Instr` is well formed and
encodable, and no check on it can fail. The one thing the spec asks to be well formed is the parameter
P_BUF_BYTES (R7), with three checks. -/

namespace Sys2Proof

/-- Every instruction is well formed: its operand widths are in its type (R81, R115, R117). -/
def Instr.wellFormed : Instr → Bool
  | .nop => true
  | .crcReset => true
  | .crcFeed => true
  | .encodeRec => true
  | .decodeRec => true
  | .regRead32 _ => true
  | .regWrite32 _ _ => true
  | .bufRead8 _ => true
  | .bufWrite8 _ _ => true
  | .bufRead32 _ => true
  | .bufWrite32 _ _ => true

/-- R7: "P_BUF_BYTES is a multiple of 4, and 16 <= P_BUF_BYTES <= 2^31". -/
def legalBufBytes (n : Nat) : Bool := decide (n % 4 = 0 ∧ 16 ≤ n ∧ n ≤ 2147483648)

end Sys2Proof
end

