-- ==== Sys2Proof/Decode.lean ====
section
/-! DEFINITION. From bits to instructions. The block has two encodings (30_encoding.md): the 32-bit command word
(R113) and the transaction descriptor `(kind, off, wdata)` (R115). Both decoders are total; each word or kind
outside the tables is rejected by name (R114, R116). -/

namespace Sys2Proof

/-- A host bus transaction (R115): a 4-bit kind, a 32-bit offset in the selected space, 32-bit write data. -/
structure Txn where
  kind : BitVec 4
  off : Word
  wdata : Word
deriving DecidableEq, Repr

/-- The `TXN` format of a kind (R115): W, S and Z. -/
def kindIsWrite (k : BitVec 4) : Bool := k.getLsbD 0
def kindIsBuf (k : BitVec 4) : Bool := k.getLsbD 1
def kindSize (k : BitVec 4) : BitVec 2 := k.extractLsb' 2 2

/-- What is decoded: a word the engine holds as its command, or a transaction at the host port. -/
inductive Fetched where
  | cmd (w : Word)
  | txn (x : Txn)
deriving DecidableEq, Repr

/-- Why an encoding is no row of the table. -/
inductive Reject where
  /-- A CMD word outside R113's table (R114). The block accepts it and completes with BAD_CMD (R152). -/
  | reservedCommand (w : Word)
  /-- A transaction kind outside R116's table. The block refuses it by kind (R146). -/
  | refusedKind (k : BitVec 4)
deriving DecidableEq, Repr

/-- R113: "A command word matches a row exactly when w = the row's value". -/
def decodeCmd (w : Word) : Except Reject Instr :=
  if w = 0x00000000#32 then .ok .nop
  else if w = 0x00000001#32 then .ok .crcReset
  else if w = 0x00000002#32 then .ok .crcFeed
  else if w = 0x00000003#32 then .ok .encodeRec
  else if w = 0x00000004#32 then .ok .decodeRec
  else .error (.reservedCommand w)

/-- R116's table of the six kinds that are not refused by kind alone. A read does not use `wdata` (R115). -/
def decodeTxn (x : Txn) : Except Reject Instr :=
  if x.kind = 0x8#4 then .ok (.regRead32 x.off)
  else if x.kind = 0x9#4 then .ok (.regWrite32 x.off x.wdata)
  else if x.kind = 0x2#4 then .ok (.bufRead8 x.off)
  else if x.kind = 0x3#4 then .ok (.bufWrite8 x.off x.wdata)
  else if x.kind = 0xA#4 then .ok (.bufRead32 x.off)
  else if x.kind = 0xB#4 then .ok (.bufWrite32 x.off x.wdata)
  else .error (.refusedKind x.kind)

def decode : Fetched → Except Reject Instr
  | .cmd w => decodeCmd w
  | .txn x => decodeTxn x

/-- The encoder: R113's command words, R115's descriptor with R116's kinds. A read carries zero write data (log 23). -/
def encode : Instr → Fetched
  | .nop => .cmd 0x00000000#32
  | .crcReset => .cmd 0x00000001#32
  | .crcFeed => .cmd 0x00000002#32
  | .encodeRec => .cmd 0x00000003#32
  | .decodeRec => .cmd 0x00000004#32
  | .regRead32 off => .txn ⟨0x8#4, off, 0#32⟩
  | .regWrite32 off wdata => .txn ⟨0x9#4, off, wdata⟩
  | .bufRead8 off => .txn ⟨0x2#4, off, 0#32⟩
  | .bufWrite8 off wdata => .txn ⟨0x3#4, off, wdata⟩
  | .bufRead32 off => .txn ⟨0xA#4, off, 0#32⟩
  | .bufWrite32 off wdata => .txn ⟨0xB#4, off, wdata⟩

/-- An instruction's bits as spec/opcode_table.json numbers them. A row of 32 bits is a CMD word (R113). Any other
row is a transaction descriptor: the 4-bit kind in bits 3:0 of the first byte, then the offset in bits 39:8 and the
write data in bits 71:40, little end first; bits 7:4 only pad the kind to a byte. The spec gives the descriptor as a
tuple and no layout of it: DESIGN CHOICE (log 10). -/
def fetchedOfBits (nbits w : Nat) : Fetched :=
  if nbits = 32 then .cmd (BitVec.ofNat 32 w)
  else .txn ⟨BitVec.ofNat 4 w, BitVec.ofNat 32 (w / 256), BitVec.ofNat 32 (w / 1099511627776)⟩

/-- How many bits an encoding has, and those bits as one number: the inverse of `fetchedOfBits` (log 10). -/
def bitsOfFetched : Fetched → Nat × Nat
  | .cmd w => (32, w.toNat)
  | .txn x => (72, x.kind.toNat + 256 * x.off.toNat + 1099511627776 * x.wdata.toNat)

/-- The instruction the decoder reads from an instruction's bits, as the opcode table numbers them. -/
def decodeTableWord (nbits w : Nat) : Option Instr :=
  match decode (fetchedOfBits nbits w) with
  | .ok i => some i
  | .error _ => none

/-! Every constructor's decoding, from the words of R113 and the kinds of R116 written out. -/

theorem decode_word_nop : decode (.cmd 0x00000000#32) = .ok .nop := by decide
theorem decode_word_crcReset : decode (.cmd 0x00000001#32) = .ok .crcReset := by decide
theorem decode_word_crcFeed : decode (.cmd 0x00000002#32) = .ok .crcFeed := by decide
theorem decode_word_encodeRec : decode (.cmd 0x00000003#32) = .ok .encodeRec := by decide
theorem decode_word_decodeRec : decode (.cmd 0x00000004#32) = .ok .decodeRec := by decide
theorem decode_kind_regRead32 (off wdata : Word) :
    decode (.txn ⟨0x8#4, off, wdata⟩) = .ok (.regRead32 off) := rfl
theorem decode_kind_regWrite32 (off wdata : Word) :
    decode (.txn ⟨0x9#4, off, wdata⟩) = .ok (.regWrite32 off wdata) := rfl
theorem decode_kind_bufRead8 (off wdata : Word) :
    decode (.txn ⟨0x2#4, off, wdata⟩) = .ok (.bufRead8 off) := rfl
theorem decode_kind_bufWrite8 (off wdata : Word) :
    decode (.txn ⟨0x3#4, off, wdata⟩) = .ok (.bufWrite8 off wdata) := rfl
theorem decode_kind_bufRead32 (off wdata : Word) :
    decode (.txn ⟨0xA#4, off, wdata⟩) = .ok (.bufRead32 off) := rfl
theorem decode_kind_bufWrite32 (off wdata : Word) :
    decode (.txn ⟨0xB#4, off, wdata⟩) = .ok (.bufWrite32 off wdata) := rfl

end Sys2Proof
end

