-- ==== Sys2Proof/Machine/State.lean ====
section
/-! DEFINITION. The state of the block (10_state.md), as plain data, and the state after reset (R270). -/

namespace Sys2Proof.Machine

/-- Why a step could stop with a fault. The block has no traps (R15) and no rule stops it: every error is a
code in STATUS.ERR or a sticky bit, so nothing raises a fault and the type has no constructor. Safe (log 15). -/
inductive Fault
deriving DecidableEq, Repr

/-- Why a step could have no meaning. -/
inductive Refusal where
  /-- Raised by an arm of `exec` whose instruction has no meaning yet; no arm is in that case. Safe. -/
  | notModelled (mnemonic : String)
deriving DecidableEq, Repr

/-- STATUS.ERR (R37). The reserved codes 5, 6 and 7 are never written, so they are no value of the type (U8). -/
inductive ErrCode where
  | noErr
  | truncated
  | checksumMismatch
  | range
  | badCmd
deriving DecidableEq, Repr

/-- `eng.st` (R54). -/
inductive EngSt where
  | idle
  | xNop
  | xBad
  | fRun
  | fLoop
  | eChk
  | eHdr
  | eBody
  | eTrl
  | dChk
  | dHdr
  | dLen
  | dBody
  | dTrl
  | dCmp
deriving DecidableEq, Repr

/-- The registers of REG space that store a value (R32). CMD stores nothing (R33); TAG_FLAGS (R44), CRC_RESULT (R49)
and BUF_SIZE (R50) are views of TAG, CRC_ACC and the parameter. -/
structure Regs where
  addr : Word
  count : Word
  len : Word
  tag : Word
  rxCrc : Word
  calcCrc : Word
  consumed : Word
  crcAcc : Word
deriving DecidableEq, Repr

/-- The stored fields of STATUS (R34). BUSY is a view of `eng.st` (R35, R55). -/
structure Status where
  done : Bool
  err : ErrCode
  cmdOvr : Bool
  busErr : Bool
deriving DecidableEq, Repr

/-- The hidden engine state (R54). `op` is the whole latched CMD word (R144). -/
structure Engine where
  st : EngSt
  op : Word
  a : Word
  n : Word
  i : Nat
  acc : Word
  len : Word
  rx : Word
deriving DecidableEq, Repr

/-- BUF (R53): the bytes written since the last reset, by offset. An offset that is not listed has not been written
(R271). Canonical form: offsets strictly rising (log 5). -/
abbrev Memory := List Host.Cell

/-- One entry of the total order of R91. The scheduler chooses the order freely (R282). -/
inductive Event where
  /-- The host makes a bus transaction (R30, R115). -/
  | txn (x : Txn)
  /-- The engine takes one row of its reference machine (R187, R205, R226). -/
  | engineStep
  /-- The engine does all that is left of its command in one step: its rows merged (R187, R205, R226; R283). -/
  | engineRun
  /-- The reset input (R270). -/
  | reset
deriving DecidableEq, Repr

/-- The whole machine. `regs`, `status`, `eng` and `buf` are the spec's state; `bufBytes` is the parameter
P_BUF_BYTES, the BUF_SIZE register's value (R50); `rdata` is what the last read transaction returned (R115). The
last three fields are the model's own: the order of events to come (log 2), the number of resets (log 4), and the
number of write-set reads (log 7). -/
structure State where
  regs : Regs
  status : Status
  eng : Engine
  buf : Memory
  bufBytes : Nat
  rdata : Option Word
  schedule : List Event
  epoch : Nat
  draws : Nat
deriving DecidableEq, Repr

/-- R32, R270: the reset values of the registers. -/
def Regs.reset : Regs :=
  { addr := 0x00000000#32, count := 0x00000000#32, len := 0x00000000#32, tag := 0x00000000#32,
    rxCrc := 0x00000000#32, calcCrc := 0x00000000#32, consumed := 0x00000000#32, crcAcc := 0xFFFFFFFF#32 }

/-- R270: "STATUS <- 0x00000000". -/
def Status.reset : Status :=
  { done := false, err := .noErr, cmdOvr := false, busErr := false }

/-- R270: "eng.st <- IDLE"; the other hidden fields are any value (R54, U3), drawn anew at each reset (log 6). -/
def Engine.reset (epoch : Nat) : Engine :=
  { st := .idle
    op := Config.resetEngWord epoch 0
    a := Config.resetEngWord epoch 1
    n := Config.resetEngWord epoch 2
    i := Config.resetEngIndex epoch % 4294967297
    acc := Config.resetEngWord epoch 3
    len := Config.resetEngWord epoch 4
    rx := Config.resetEngWord epoch 5 }

/-- The machine right after reset (R270, R271), with nothing scheduled. -/
def State.reset : State :=
  { regs := Regs.reset
    status := Status.reset
    eng := Engine.reset 0
    buf := []
    bufBytes := Config.bufBytes
    rdata := none
    schedule := []
    epoch := 0
    draws := 0 }

end Sys2Proof.Machine
end

