-- ==== Sys2Proof/Machine/Ops.lean ====
section
/-! DEFINITION. The named operations over the buffer, the status register and the engine latches that the
meanings share: `MemRead`, `MemWrite`, `MemBytes` (R14), completion (R15, R245), acceptance (R144), refusal
(R146, R278), W1C (R143), reset (R270). -/

namespace Sys2Proof.Machine

/-! ## The buffer -/

/-- Offsets strictly rising. -/
def Memory.wf : Memory → Bool
  | [] => true
  | [_] => true
  | (a, _) :: (b, y) :: m => decide (a < b) && Memory.wf ((b, y) :: m)

/-- The byte written last at an offset since the last reset, if one was. -/
def Memory.get : Memory → Nat → Option Byte
  | [], _ => none
  | (k, v) :: m, a => if k = a then some v else Memory.get m a

/-- Write one byte, keeping the offsets strictly rising. -/
def Memory.put : Memory → Nat → Byte → Memory
  | [], a, b => [(a, b)]
  | (k, v) :: m, a, b =>
    if a < k then (a, b) :: (k, v) :: m
    else if a = k then (a, b) :: m
    else (k, v) :: Memory.put m a b

/-- Write bytes at rising offsets, one after the other. -/
def Memory.putBytes : Memory → Nat → List Byte → Memory
  | m, _, [] => m
  | m, a, b :: bs => Memory.putBytes (m.put a b) (a + 1) bs

/-- `MemRead(a, 1)` (R14). A byte not written since reset is the reset's draw for it (R271, log 4). -/
def memRead8 (s : State) (a : Nat) : Byte :=
  match s.buf.get a with
  | some b => b
  | none => Config.unwrittenByte s.epoch a

/-- `MemRead(a, 4)`, big-endian (R14, R83). -/
def memRead32 (s : State) (a : Nat) : Word :=
  be32 (memRead8 s a) (memRead8 s (a + 1)) (memRead8 s (a + 2)) (memRead8 s (a + 3))

/-- `MemBytes(a, n)`, the byte sequence `BUF[a .. a+n)` (R12, R14). -/
def memBytes (s : State) (a : Nat) : Nat → List Byte
  | 0 => []
  | n + 1 => memRead8 s a :: memBytes s (a + 1) n

/-- `MemWrite(a, 1, b)` (R14). -/
def memWrite8 (a : Nat) (b : Byte) (s : State) : State := { s with buf := s.buf.put a b }

/-- `MemWrite` of several bytes in turn, the first at the lowest offset. -/
def memWriteBytes (a : Nat) (bs : List Byte) (s : State) : State := { s with buf := s.buf.putBytes a bs }

/-- `MemWrite(a, 4, v)`: the most significant byte at the lowest offset (R14, R83). -/
def memWrite32 (a : Nat) (v : Word) (s : State) : State := memWriteBytes a (bytesBE32 v) s

/-! ## Busy, completion, acceptance -/

/-- `busy` (R35, R55): STATUS.BUSY is 1 exactly when `eng.st` is not IDLE. -/
abbrev Busy (s : State) : Prop := s.eng.st ≠ .idle

/-- Completion, the block's only "trap entry" (R245): `finish()` is `complete .noErr`, `raise Error(code)` is
`complete code` (R15). The command's own completion writes come before it. Nothing is saved; control goes nowhere. -/
def complete (code : ErrCode) (s : State) : State :=
  { s with status := { s.status with err := code, done := true }, eng := { s.eng with st := .idle } }

/-- The first state of an accepted command (R144). -/
def firstState (w : Word) : EngSt :=
  if w = 0x0#32 then .xNop
  else if w = 0x1#32 ∨ w = 0x2#32 then .fRun
  else if w = 0x3#32 then .eChk
  else if w = 0x4#32 then .dChk
  else .xBad

/-- Acceptance of a command word (R144): the operands are latched, BUSY becomes 1, DONE and ERR become 0; the sticky
bits keep their values. There is no other return from a completion than the next acceptance (R249). -/
def accept (w : Word) (s : State) : State :=
  { s with
    status := { s.status with done := false, err := .noErr }
    eng := { s.eng with
      st := firstState w
      op := w
      a := s.regs.addr
      n := if w = 0x3#32 then s.regs.len else s.regs.count } }

/-- `issue(w)` (R144): a CMD write while busy is dropped and sets CMD_OVR (R277). -/
def issue (w : Word) (s : State) : State :=
  if Busy s then { s with status := { s.status with cmdOvr := true } } else accept w s

/-- `status_w1c(v)` (R143). -/
def statusW1c (v : Word) (s : State) : State :=
  { s with status := { s.status with
      cmdOvr := s.status.cmdOvr && !v.getLsbD 8
      busErr := s.status.busErr && !v.getLsbD 9 } }

/-! ## The bus port -/

/-- A read transaction returns a value (R115). -/
def answer (v : Word) (s : State) : State := { s with rdata := some v }

/-- A read of a write-set register while busy: any 32-bit value, a separate draw for each read (R279, log 7). -/
def answerFree (s : State) : State :=
  { s with rdata := some (Config.busyRead s.draws), draws := s.draws + 1 }

/-- A refusal (R146, and R278 with the same effect): BUS_ERR becomes 1; a refused read returns 0. -/
def refuse (isRead : Bool) (s : State) : State :=
  { s with
    status := { s.status with busErr := true }
    rdata := if isRead then some 0x00000000#32 else s.rdata }

/-- A transaction refused by kind (R116, R146). Whether it is a read is the kind's W bit (R115). -/
def refuseKind (k : BitVec 4) (s : State) : State := refuse (!kindIsWrite k) s

/-! ## Reset -/

/-- The reset input (R270): a running command is abandoned; BUF and the hidden latches are drawn anew (R271). What
the host was told last, the events still to come and the count of draws are no state of the block (log 17). -/
def resetEvent (s : State) : State :=
  { s with
    regs := Regs.reset
    status := Status.reset
    eng := Engine.reset (s.epoch + 1)
    buf := []
    epoch := s.epoch + 1 }

end Sys2Proof.Machine
end

