-- ==== Sys2Proof/Machine/Flags.lean ====
section
/-! DEFINITION. The flag words: TAG_FLAGS (41_tag.md) and STATUS (R34). -/

namespace Sys2Proof.Machine

/-- R43: `tag_bytes`, the four tag bytes in wire order. -/
def tagBytes (v : Word) : List Byte := [lane v 0, lane v 1, lane v 2, lane v 3]

/-- "Bit 5 of a byte", the bit of weight 0x20 (R10, 90_conflicts.md C2). -/
def bit5 (b : Byte) : Bool := b &&& 0x20#8 != 0#8

/-- R160. -/
def flagCritical (t0 : Byte) : Bool := !bit5 t0
/-- R161. -/
def flagPublic (t1 : Byte) : Bool := !bit5 t1
/-- R162. -/
def flagReservedValid (t2 : Byte) : Bool := !bit5 t2
/-- R163: the opposite polarity. -/
def flagSafeToCopy (t3 : Byte) : Bool := bit5 t3
/-- R164: VALID is RESERVED_VALID and nothing else. -/
def flagValid (t2 : Byte) : Bool := flagReservedValid t2
/-- R165: an ASCII letter. -/
def alpha (b : Byte) : Bool :=
  (decide (0x41 ≤ b.toNat) && decide (b.toNat ≤ 0x5A)) || (decide (0x61 ≤ b.toNat) && decide (b.toNat ≤ 0x7A))
/-- R165. -/
def flagAlpha (t0 t1 t2 t3 : Byte) : Bool := alpha t0 && alpha t1 && alpha t2 && alpha t3

/-- R166: `tag_flags`. -/
def tagFlags (t0 t1 t2 t3 : Byte) : Word :=
  flagAt (flagCritical t0) 0 ||| flagAt (flagPublic t1) 1 ||| flagAt (flagReservedValid t2) 2 |||
    flagAt (flagSafeToCopy t3) 3 ||| flagAt (flagValid t2) 4 ||| flagAt (flagAlpha t0 t1 t2 t3) 5

/-- R44: the TAG_FLAGS register, a function of TAG at any time. -/
def tagFlagsOf (tag : Word) : Word := tagFlags (lane tag 0) (lane tag 1) (lane tag 2) (lane tag 3)

/-- R37: the numeric result codes. -/
def ErrCode.code : ErrCode → Word
  | .noErr => 0#32
  | .truncated => 1#32
  | .checksumMismatch => 2#32
  | .range => 3#32
  | .badCmd => 4#32

/-- R34: the STATUS word: BUSY[0], DONE[1], ERR[6:4], CMD_OVR[8], BUS_ERR[9]; every other bit reads 0. -/
def statusWord (s : State) : Word :=
  flagAt (decide (Busy s)) 0 ||| flagAt s.status.done 1 ||| s.status.err.code <<< 4 |||
    flagAt s.status.cmdOvr 8 ||| flagAt s.status.busErr 9

end Sys2Proof.Machine
end

