-- ==== Sys2Proof/Machine/Operands.lean ====
section
/-! DEFINITION. The operand forms: REG offsets and the register they name (R32, R51, R81), BUF offsets and their checks
(R85, R146), the engine's latched operands and its bound check (R86, R88), and the write sets (R56). -/

namespace Sys2Proof.Machine

/-- The registers of R32, or RESERVED (40_bus.md). -/
inductive RegName where
  | cmd | status | addr | count | len | tag | tagFlags | rxCrc | calcCrc | consumed | crcAcc | crcResult | bufSize
  | reserved
deriving DecidableEq, Repr

/-- `reg(off)` (40_bus.md): the register at an offset, or RESERVED; offsets of 0x34 and above are reserved (R51, R81). -/
def regAt (off : Word) : RegName :=
  match off.toNat with
  | 0x00 => .cmd
  | 0x04 => .status
  | 0x08 => .addr
  | 0x0C => .count
  | 0x10 => .len
  | 0x14 => .tag
  | 0x18 => .tagFlags
  | 0x1C => .rxCrc
  | 0x20 => .calcCrc
  | 0x24 => .consumed
  | 0x28 => .crcAcc
  | 0x2C => .crcResult
  | 0x30 => .bufSize
  | _ => .reserved

/-- R85: a 4-byte access is allowed where `off mod 4 = 0`. -/
abbrev Aligned4 (off : Word) : Prop := off.toNat % 4 = 0

/-- R85, R146: a 1-byte BUF access is allowed below P_BUF_BYTES. -/
abbrev ByteInBuf (s : State) (off : Word) : Prop := off.toNat < s.bufBytes

/-- R85, R146: a 4-byte BUF access is allowed at an aligned offset with all four bytes inside. -/
abbrev WordInBuf (s : State) (off : Word) : Prop := Aligned4 off ∧ off.toNat + 4 ≤ s.bufBytes

/-- R86, R88: the bound check `a + n <= P_BUF_BYTES` on unbounded sums. -/
abbrev FitsBuf (s : State) (a n : Nat) : Prop := a + n ≤ s.bufBytes

/-- `eng.a` as an offset. -/
abbrev engA (s : State) : Nat := s.eng.a.toNat

/-- `eng.n` as a count. -/
abbrev engN (s : State) : Nat := s.eng.n.toNat

/-- The value a register reads as when no hazard applies (R140). -/
def regValue (s : State) : RegName → Word
  | .cmd => 0x00000000#32
  | .status => statusWord s
  | .addr => s.regs.addr
  | .count => s.regs.count
  | .len => s.regs.len
  | .tag => s.regs.tag
  | .tagFlags => tagFlagsOf s.regs.tag
  | .rxCrc => s.regs.rxCrc
  | .calcCrc => s.regs.calcCrc
  | .consumed => s.regs.consumed
  | .crcAcc => s.regs.crcAcc
  | .crcResult => s.regs.crcAcc ^^^ 0xFFFFFFFF#32
  | .bufSize => BitVec.ofNat 32 s.bufBytes
  | .reserved => 0x00000000#32

/-- A write to an RW register stores all 32 bits (R142); a write to any other register has no effect (R32, R51). -/
def storeReg (r : RegName) (v : Word) (s : State) : State :=
  match r with
  | .addr => { s with regs := { s.regs with addr := v } }
  | .count => { s with regs := { s.regs with count := v } }
  | .len => { s with regs := { s.regs with len := v } }
  | .tag => { s with regs := { s.regs with tag := v } }
  | .crcAcc => { s with regs := { s.regs with crcAcc := v } }
  | .cmd => s
  | .status => s
  | .tagFlags => s
  | .rxCrc => s
  | .calcCrc => s
  | .consumed => s
  | .crcResult => s
  | .bufSize => s
  | .reserved => s

/-- R56: the registers in the running command's write set. -/
def writeSet (op : Word) : List RegName :=
  if op = 0x1#32 ∨ op = 0x2#32 then [.crcAcc, .crcResult]
  else if op = 0x3#32 then [.calcCrc, .consumed]
  else if op = 0x4#32 then [.len, .tag, .tagFlags, .rxCrc, .calcCrc, .consumed]
  else []

end Sys2Proof.Machine
end

