-- ==== Sys2Proof/Machine/Bus.lean ====
section
/-! DEFINITION. The six host bus transactions (40_bus.md), with their refusals (R146) and the busy hazards
(R277 to R279). -/

namespace Sys2Proof.Machine

/-- R140, R279: a register read: a free value for a register in the running command's write set. -/
def regRead (r : RegName) (s : State) : State :=
  if Busy s ∧ r ∈ writeSet s.eng.op then answerFree s else answer (regValue s r) s

/-- R141: a register write. CMD issues (R144), STATUS is W1C even while busy (R143), every other register is refused
while busy (R278). -/
def regWrite (r : RegName) (v : Word) (s : State) : State :=
  match r with
  | .cmd => issue v s
  | .status => statusW1c v s
  | .addr => if Busy s then refuse false s else storeReg .addr v s
  | .count => if Busy s then refuse false s else storeReg .count v s
  | .len => if Busy s then refuse false s else storeReg .len v s
  | .tag => if Busy s then refuse false s else storeReg .tag v s
  | .tagFlags => if Busy s then refuse false s else storeReg .tagFlags v s
  | .rxCrc => if Busy s then refuse false s else storeReg .rxCrc v s
  | .calcCrc => if Busy s then refuse false s else storeReg .calcCrc v s
  | .consumed => if Busy s then refuse false s else storeReg .consumed v s
  | .crcAcc => if Busy s then refuse false s else storeReg .crcAcc v s
  | .crcResult => if Busy s then refuse false s else storeReg .crcResult v s
  | .bufSize => if Busy s then refuse false s else storeReg .bufSize v s
  | .reserved => if Busy s then refuse false s else storeReg .reserved v s

/-- REG_READ32 (R140). -/
def execRegRead32 (off : Word) (s : State) : Host.Outcome State Fault Refusal :=
  .next (if Aligned4 off then regRead (regAt off) s else refuse true s)

/-- REG_WRITE32 (R141). -/
def execRegWrite32 (off wdata : Word) (s : State) : Host.Outcome State Fault Refusal :=
  .next (if Aligned4 off then regWrite (regAt off) wdata s else refuse false s)

/-- BUF_READ8 (R147): the byte zero-extended. -/
def execBufRead8 (off : Word) (s : State) : Host.Outcome State Fault Refusal :=
  .next (if ¬ ByteInBuf s off then refuse true s
    else if Busy s then refuse true s
    else answer ((memRead8 s off.toNat).setWidth 32) s)

/-- BUF_WRITE8 (R148): `wdata[31:8]` is ignored. -/
def execBufWrite8 (off wdata : Word) (s : State) : Host.Outcome State Fault Refusal :=
  .next (if ¬ ByteInBuf s off then refuse false s
    else if Busy s then refuse false s
    else memWrite8 off.toNat (lowByte wdata) s)

/-- BUF_READ32 (R149). -/
def execBufRead32 (off : Word) (s : State) : Host.Outcome State Fault Refusal :=
  .next (if ¬ WordInBuf s off then refuse true s
    else if Busy s then refuse true s
    else answer (memRead32 s off.toNat) s)

/-- BUF_WRITE32 (R150): never partly performed. -/
def execBufWrite32 (off wdata : Word) (s : State) : Host.Outcome State Fault Refusal :=
  .next (if ¬ WordInBuf s off then refuse false s
    else if Busy s then refuse false s
    else memWrite32 off.toNat wdata s)

end Sys2Proof.Machine
end

