-- ==== Sys2Proof/Machine/Command.lean ====
section
/-! DEFINITION. Commands with no data operation: NOP (R151) and the reserved command words (R114, R152). -/

namespace Sys2Proof.Machine

/-- NOP (R151): `finish()`. -/
def execNop (s : State) : Host.Outcome State Fault Refusal := .next (complete .noErr s)

/-- A reserved command word (R152): `raise Error(BAD_CMD)`; nothing but STATUS changes. -/
def badCommand (s : State) : State := complete .badCmd s

end Sys2Proof.Machine
end

