-- ==== Sys2Proof/Machine/Crc.lean ====
section
/-! DEFINITION. The CRC-32 engine (42_crc.md): the primitives of R181 to R184 and the commands CRC_RESET and CRC_FEED. -/

namespace Sys2Proof.Machine

/-- One of the eight shifts of R181, with the reflected polynomial 0xEDB88320 (R180). -/
def crcBit (c : Word) : Word := if c.getLsbD 0 then (c >>> 1) ^^^ 0xEDB88320#32 else c >>> 1

/-- Eight shifts (R181). -/
def crcBits8 (c : Word) : Word := crcBit (crcBit (crcBit (crcBit (crcBit (crcBit (crcBit (crcBit c)))))))

/-- R181: `crc_byte(c, b)`. -/
def crcByte (c : Word) (b : Byte) : Word := crcBits8 (c ^^^ b.setWidth 32)

/-- R182: `crc_fold(c, s)`. -/
def crcFold (c : Word) : List Byte → Word
  | [] => c
  | b :: s => crcFold (crcByte c b) s

/-- R183: `CRC32(s)`. -/
def crc32 (s : List Byte) : Word := crcFold 0xFFFFFFFF#32 s ^^^ 0xFFFFFFFF#32

/-- R184: the table entry `T[k]`. -/
def crcTable (k : Byte) : Word := crcByte 0x00000000#32 k

/-- R184: the table form of the update, which an implementation may use. -/
def crcByteByTable (c : Word) (b : Byte) : Word :=
  (c >>> 8) ^^^ crcTable (lowByte ((c ^^^ b.setWidth 32) &&& 0x000000FF#32))

/-- R185: the completion of CRC_RESET. -/
def crcResetResult (s : State) : State :=
  complete .noErr { s with regs := { s.regs with crcAcc := 0xFFFFFFFF#32 } }

/-- R186: the completion of CRC_FEED over the latched `a = eng.a`, `n = eng.n`. -/
def crcFeedResult (s : State) : State :=
  if FitsBuf s (engA s) (engN s) then
    complete .noErr { s with regs := { s.regs with
      crcAcc := crcFold s.regs.crcAcc (memBytes s (engA s) (engN s)) } }
  else complete .range s

/-- CRC_RESET (R185). -/
def execCrcReset (s : State) : Host.Outcome State Fault Refusal := .next (crcResetResult s)

/-- CRC_FEED (R186). -/
def execCrcFeed (s : State) : Host.Outcome State Fault Refusal := .next (crcFeedResult s)

end Sys2Proof.Machine
end

