-- ==== Sys2Proof/Machine/Framing.lean ====
section
/-! DEFINITION. ENCODE (43_encode.md) and DECODE (44_decode.md), as the spec's pseudocode at completion: R201, R216. -/

namespace Sys2Proof.Machine

/-- A failed ENCODE or DECODE sets CONSUMED to 0 (R47), then raises. -/
def failRecord (code : ErrCode) (s : State) : State :=
  complete code { s with regs := { s.regs with consumed := 0x00000000#32 } }

/-- R201: the header: the length big-endian, then the tag bytes verbatim, in order. -/
def writeHeader (s : State) : State :=
  memWriteBytes (engA s + 4) (tagBytes s.regs.tag) (memWrite32 (engA s) s.eng.n s)

/-- R201: the checksum ENCODE computes once the header is written: tag bytes, then payload (R112). -/
def encodeCrc (s : State) : Word :=
  crc32 (tagBytes s.regs.tag ++ memBytes s (engA s + 8) (engN s))

/-- R201: the completion of ENCODE over the latched `a = eng.a`, `L = eng.n` and TAG. -/
def encodeResult (s : State) : State :=
  if FitsBuf s (engA s) (12 + engN s) then
    let h := writeHeader s
    let c := encodeCrc h
    let r := memWrite32 (engA s + 8 + engN s) c h
    complete .noErr { r with regs := { r.regs with
      calcCrc := c, consumed := BitVec.ofNat 32 (12 + engN s) } }
  else failRecord .range s

/-- The declared length of the record at the latched ADDR (R218). -/
def declaredLen (s : State) : Word := memRead32 s (engA s)

/-- The tag of the record at the latched ADDR, as TAG holds it (R43, R218). -/
def recordTag (s : State) : Word :=
  be32 (memRead8 s (engA s + 4)) (memRead8 s (engA s + 5)) (memRead8 s (engA s + 6)) (memRead8 s (engA s + 7))

/-- The declared checksum, at record offset 8+length (R220). -/
def declaredCrc (s : State) : Word := memRead32 s (engA s + 8 + (declaredLen s).toNat)

/-- The recomputed checksum over tag bytes and payload (R221). -/
def expectedCrc (s : State) : Word :=
  crc32 (memBytes s (engA s + 4) 4 ++ memBytes s (engA s + 8) (declaredLen s).toNat)

/-- R216: the completion of DECODE over the latched `a = eng.a`, `N = eng.n`. The order of the checks is the
order of the reports (R246). -/
def decodeResult (s : State) : State :=
  if ¬ FitsBuf s (engA s) (engN s) then failRecord .range s
  else if engN s < 12 then failRecord .truncated s
  else
    let l := declaredLen s
    let regs2 := { s.regs with len := l, tag := recordTag s }
    if engN s < 12 + l.toNat then failRecord .truncated { s with regs := regs2 }
    else
      let rx := declaredCrc s
      let c := expectedCrc s
      let regs3 := { regs2 with rxCrc := rx, calcCrc := c }
      if rx = c then
        complete .noErr { s with regs := { regs3 with consumed := BitVec.ofNat 32 (12 + l.toNat) } }
      else failRecord .checksumMismatch { s with regs := regs3 }

/-- ENCODE (R201 to R203). -/
def execEncodeRec (s : State) : Host.Outcome State Fault Refusal := .next (encodeResult s)

/-- DECODE (R215 to R227). -/
def execDecodeRec (s : State) : Host.Outcome State Fault Refusal := .next (decodeResult s)

end Sys2Proof.Machine
end

