-- ==== Sys2Proof/Machine/Dispatch.lean ====
section
/-! DEFINITION. One arm for each instruction. -/

namespace Sys2Proof.Machine

def exec (i : Instr) (s : State) : Host.Outcome State Fault Refusal :=
  match i with
  | .nop => Sys2Proof.Machine.execNop s
  | .crcReset => Sys2Proof.Machine.execCrcReset s
  | .crcFeed => Sys2Proof.Machine.execCrcFeed s
  | .encodeRec => Sys2Proof.Machine.execEncodeRec s
  | .decodeRec => Sys2Proof.Machine.execDecodeRec s
  | .regRead32 off => Sys2Proof.Machine.execRegRead32 off s
  | .regWrite32 off wdata => Sys2Proof.Machine.execRegWrite32 off wdata s
  | .bufRead8 off => Sys2Proof.Machine.execBufRead8 off s
  | .bufWrite8 off wdata => Sys2Proof.Machine.execBufWrite8 off wdata s
  | .bufRead32 off => Sys2Proof.Machine.execBufRead32 off s
  | .bufWrite32 off wdata => Sys2Proof.Machine.execBufWrite32 off wdata s

end Sys2Proof.Machine
end

