-- ==== Sys2Proof/Machine/Engine.lean ====
section
/-! DEFINITION. The reference state machines of the engine (R187, R205, R226), row by row: one row is one engine
step. Where no row of a table applies (a state no run reaches), the engine does not move (log 14). -/

namespace Sys2Proof.Machine

/-- R187, state F_RUN. -/
def rowFRun (s : State) : State :=
  if s.eng.op = 0x1#32 then complete .noErr { s with regs := { s.regs with crcAcc := 0xFFFFFFFF#32 } }
  else if s.eng.op = 0x2#32 then
    if ¬ FitsBuf s (engA s) (engN s) then complete .range s
    else { s with eng := { s.eng with st := .fLoop, i := 0, acc := s.regs.crcAcc } }
  else s

/-- R187, state F_LOOP. -/
def rowFLoop (s : State) : State :=
  if s.eng.i < engN s then
    { s with eng := { s.eng with
        acc := crcByte s.eng.acc (memRead8 s (engA s + s.eng.i)), i := s.eng.i + 1 } }
  else if s.eng.i = engN s then complete .noErr { s with regs := { s.regs with crcAcc := s.eng.acc } }
  else s

/-- R205, state E_CHK. -/
def rowEChk (s : State) : State :=
  if ¬ FitsBuf s (engA s) (12 + engN s) then failRecord .range s
  else { s with eng := { s.eng with st := .eHdr, acc := 0xFFFFFFFF#32, i := 0 } }

/-- R205, state E_HDR: the length bytes, then the tag bytes, which are folded as they are written. -/
def rowEHdr (s : State) : State :=
  if s.eng.i < 4 then
    let r := memWrite8 (engA s + s.eng.i) (lane s.eng.n s.eng.i) s
    { r with eng := { r.eng with i := s.eng.i + 1 } }
  else if s.eng.i < 8 then
    let b := lane s.regs.tag (s.eng.i - 4)
    let r := memWrite8 (engA s + s.eng.i) b s
    { r with eng := { r.eng with acc := crcByte s.eng.acc b, i := s.eng.i + 1 } }
  else if s.eng.i = 8 then { s with eng := { s.eng with st := .eBody, i := 0 } }
  else s

/-- R205, state E_BODY. -/
def rowEBody (s : State) : State :=
  if s.eng.i < engN s then
    { s with eng := { s.eng with
        acc := crcByte s.eng.acc (memRead8 s (engA s + 8 + s.eng.i)), i := s.eng.i + 1 } }
  else if s.eng.i = engN s then
    { s with eng := { s.eng with st := .eTrl, acc := s.eng.acc ^^^ 0xFFFFFFFF#32, i := 0 } }
  else s

/-- R205, state E_TRL. -/
def rowETrl (s : State) : State :=
  if s.eng.i < 4 then
    let r := memWrite8 (engA s + 8 + engN s + s.eng.i) (lane s.eng.acc s.eng.i) s
    { r with eng := { r.eng with i := s.eng.i + 1 } }
  else if s.eng.i = 4 then
    complete .noErr { s with regs := { s.regs with
      calcCrc := s.eng.acc, consumed := BitVec.ofNat 32 (12 + engN s) } }
  else s

/-- R226, state D_CHK. -/
def rowDChk (s : State) : State :=
  if ¬ FitsBuf s (engA s) (engN s) then failRecord .range s
  else if engN s < 12 then failRecord .truncated s
  else { s with eng := { s.eng with st := .dHdr, acc := 0xFFFFFFFF#32, i := 0 } }

/-- R226, state D_HDR: the length bytes, then the tag bytes, which are folded as they are read. -/
def rowDHdr (s : State) : State :=
  if s.eng.i < 4 then
    { s with eng := { s.eng with
        len := setLane s.eng.len s.eng.i (memRead8 s (engA s + s.eng.i)), i := s.eng.i + 1 } }
  else if s.eng.i < 8 then
    let b := memRead8 s (engA s + s.eng.i)
    { s with
      regs := { s.regs with tag := setLane s.regs.tag (s.eng.i - 4) b }
      eng := { s.eng with acc := crcByte s.eng.acc b, i := s.eng.i + 1 } }
  else if s.eng.i = 8 then
    { s with regs := { s.regs with len := s.eng.len }, eng := { s.eng with st := .dLen } }
  else s

/-- R226, state D_LEN. -/
def rowDLen (s : State) : State :=
  if engN s < 12 + s.eng.len.toNat then failRecord .truncated s
  else { s with eng := { s.eng with st := .dBody, i := 0 } }

/-- R226, state D_BODY. -/
def rowDBody (s : State) : State :=
  if s.eng.i < s.eng.len.toNat then
    { s with eng := { s.eng with
        acc := crcByte s.eng.acc (memRead8 s (engA s + 8 + s.eng.i)), i := s.eng.i + 1 } }
  else if s.eng.i = s.eng.len.toNat then
    { s with eng := { s.eng with st := .dTrl, acc := s.eng.acc ^^^ 0xFFFFFFFF#32, i := 0 } }
  else s

/-- R226, state D_TRL. -/
def rowDTrl (s : State) : State :=
  if s.eng.i < 4 then
    { s with eng := { s.eng with
        rx := setLane s.eng.rx s.eng.i (memRead8 s (engA s + 8 + s.eng.len.toNat + s.eng.i)), i := s.eng.i + 1 } }
  else if s.eng.i = 4 then
    { s with
      regs := { s.regs with rxCrc := s.eng.rx, calcCrc := s.eng.acc }
      eng := { s.eng with st := .dCmp } }
  else s

/-- R226, state D_CMP. -/
def rowDCmp (s : State) : State :=
  if s.eng.rx = s.eng.acc then
    complete .noErr { s with regs := { s.regs with consumed := BitVec.ofNat 32 (12 + s.eng.len.toNat) } }
  else failRecord .checksumMismatch s

/-- One engine step: one row of the reference machine of the running command. An idle engine takes none. -/
def engineRow (s : State) : State :=
  match s.eng.st with
  | .idle => s
  | .xNop => complete .noErr s
  | .xBad => badCommand s
  | .fRun => rowFRun s
  | .fLoop => rowFLoop s
  | .eChk => rowEChk s
  | .eHdr => rowEHdr s
  | .eBody => rowEBody s
  | .eTrl => rowETrl s
  | .dChk => rowDChk s
  | .dHdr => rowDHdr s
  | .dLen => rowDLen s
  | .dBody => rowDBody s
  | .dTrl => rowDTrl s
  | .dCmp => rowDCmp s

/-- Engine steps with no transaction between them. -/
def engineRows : Nat → State → State
  | 0, s => s
  | k + 1, s => engineRows k (engineRow s)

end Sys2Proof.Machine
end

