-- ==== Sys2Proof/Machine/Step.lean ====
section
/-! DEFINITION. One step of the machine: the next entry of the total order of transactions, engine steps and resets
(R91), which the schedule holds (R282, log 2). -/

namespace Sys2Proof.Machine

/-- A transaction at the host port: its instruction, or a refusal by kind (R116, R146). -/
def runTxn (x : Txn) (s : State) : Host.Outcome State Fault Refusal :=
  match decodeTxn x with
  | .ok i => exec i s
  | .error _ => .next (refuseKind x.kind s)

/-- The engine runs what is left of the command it holds, to its completion (R283): the instruction of its CMD word,
or BAD_CMD for a reserved word (R152). An idle engine does nothing (R257). -/
def runCommand (s : State) : Host.Outcome State Fault Refusal :=
  if Busy s then
    match decodeCmd s.eng.op with
    | .ok i => exec i s
    | .error _ => .next (badCommand s)
  else .next s

/-- The next entry of the schedule. With nothing scheduled a busy engine steps on (R283: weakly fair) and an idle block
keeps its state (R257). -/
def step (s : State) : Host.Outcome State Fault Refusal :=
  match s.schedule with
  | .txn x :: rest => runTxn x { s with schedule := rest }
  | .engineStep :: rest => .next (engineRow { s with schedule := rest })
  | .engineRun :: rest => runCommand { s with schedule := rest }
  | .reset :: rest => .next (resetEvent { s with schedule := rest })
  | [] => .next (engineRow s)

/-- An instruction where the next step finds it. A transaction becomes the next entry of the schedule. A command word is
held by the engine as accepted (R144), with the engine's run of it as the next entry (log 11). -/
def State.withFetchWord (s : State) (nbits w : Nat) : State :=
  match fetchedOfBits nbits w with
  | .txn x => { s with schedule := .txn x :: s.schedule }
  | .cmd c => { accept c s with schedule := .engineRun :: s.schedule }

end Sys2Proof.Machine
end

