-- ==== Sys2Proof/Machine/HostNotation.lean ====
section
/-! DEFINITION. The host notation of the spec's programs (R119) and its pseudo-instructions (R120), as the transactions
they stand for. They are no instructions of the block: control transfer is the host's business (R121). -/

namespace Sys2Proof.Machine

/-- The mnemonics that `CMD` and `RUN` take (R113, R120). -/
inductive CommandName where
  | nop | crcReset | crcFeed | encodeRec | decodeRec
deriving DecidableEq, Repr

/-- R113: a command's word. -/
def CommandName.word : CommandName → Word
  | .nop => 0x00000000#32
  | .crcReset => 0x00000001#32
  | .crcFeed => 0x00000002#32
  | .encodeRec => 0x00000003#32
  | .decodeRec => 0x00000004#32

/-- One line of a host program. `<reg>` is given by its offset (R119). -/
inductive HostLine where
  | rd (reg : Word)
  | wr (reg imm : Word)
  | rb (off : Word)
  | wb (off : Word) (imm : Byte)
  | rw (off : Word)
  | ww (off imm : Word)
  | cmd (c : CommandName)
  /-- `POLL`: a host loop of STATUS reads. `again` is how often the host repeats it (log 21). -/
  | poll (again : Nat)
  | clr
  | wbs (off : Word) (text : List Byte)
  | run (c : CommandName) (again : Nat)
deriving DecidableEq, Repr

/-- `WBS`: one BUF_WRITE8 for each byte, at rising offsets (R120). -/
def writeBytes (off : Word) : List Byte → List Txn
  | [] => []
  | b :: bs => ⟨0x3#4, off, b.setWidth 32⟩ :: writeBytes (off + 1#32) bs

/-- `POLL`: one STATUS read and its repetitions (R120). -/
def pollReads (again : Nat) : List Txn := List.replicate (again + 1) ⟨0x8#4, 0x04#32, 0#32⟩

/-- `WR CMD, w` (R120). -/
def issueTxn (c : CommandName) : Txn := ⟨0x9#4, 0x00#32, c.word⟩

/-- A line's transactions, in order (R119, R120). -/
def HostLine.expand : HostLine → List Txn
  | .rd reg => [⟨0x8#4, reg, 0#32⟩]
  | .wr reg imm => [⟨0x9#4, reg, imm⟩]
  | .rb off => [⟨0x2#4, off, 0#32⟩]
  | .wb off imm => [⟨0x3#4, off, imm.setWidth 32⟩]
  | .rw off => [⟨0xA#4, off, 0#32⟩]
  | .ww off imm => [⟨0xB#4, off, imm⟩]
  | .cmd c => [issueTxn c]
  | .poll again => pollReads again
  | .clr => [⟨0x9#4, 0x04#32, 0x00000300#32⟩]
  | .wbs off text => writeBytes off text
  | .run c again => issueTxn c :: pollReads again

/-- A program's transactions as entries of the schedule, with no engine step between them. -/
def hostEvents (p : List HostLine) : List Event := (p.flatMap HostLine.expand).map Event.txn

end Sys2Proof.Machine
end

