-- ==== Sys2Proof/Safety.lean ====
section
/-! DEFINITION. What a safe machine state is: the invariant that statements about reachable behaviour may assume. -/

namespace Sys2Proof.Machine

/-- Every written byte lies in BUF (R53, R86). -/
def Memory.below (m : Memory) (bound : Nat) : Prop := ∀ c ∈ m, c.1 < bound

/-- The engine's state belongs to the command it holds (R144), its index is within the row's range, and every state
after the bound check has a range inside BUF (R86, R187, R205, R226). -/
def EngineInv (s : State) : Prop :=
  match s.eng.st with
  | .idle => True
  | .xNop => s.eng.op = 0x0#32
  | .xBad => 5 ≤ s.eng.op.toNat
  | .fRun => s.eng.op = 0x1#32 ∨ s.eng.op = 0x2#32
  | .fLoop => s.eng.op = 0x2#32 ∧ FitsBuf s (engA s) (engN s) ∧ s.eng.i ≤ engN s
  | .eChk => s.eng.op = 0x3#32
  | .eHdr => s.eng.op = 0x3#32 ∧ FitsBuf s (engA s) (12 + engN s) ∧ s.eng.i ≤ 8
  | .eBody => s.eng.op = 0x3#32 ∧ FitsBuf s (engA s) (12 + engN s) ∧ s.eng.i ≤ engN s
  | .eTrl => s.eng.op = 0x3#32 ∧ FitsBuf s (engA s) (12 + engN s) ∧ s.eng.i ≤ 4
  | .dChk => s.eng.op = 0x4#32
  | .dHdr => s.eng.op = 0x4#32 ∧ FitsBuf s (engA s) (engN s) ∧ 12 ≤ engN s ∧ s.eng.i ≤ 8
  | .dLen => s.eng.op = 0x4#32 ∧ FitsBuf s (engA s) (engN s) ∧ 12 ≤ engN s
  | .dBody => s.eng.op = 0x4#32 ∧ FitsBuf s (engA s) (engN s) ∧ 12 + s.eng.len.toNat ≤ engN s ∧
      s.eng.i ≤ s.eng.len.toNat
  | .dTrl => s.eng.op = 0x4#32 ∧ FitsBuf s (engA s) (engN s) ∧ 12 + s.eng.len.toNat ≤ engN s ∧ s.eng.i ≤ 4
  | .dCmp => s.eng.op = 0x4#32 ∧ FitsBuf s (engA s) (engN s) ∧ 12 + s.eng.len.toNat ≤ engN s

/-- The invariant of the machine. -/
structure State.Inv (s : State) : Prop where
  /-- The parameter is legal (R7). -/
  legal : legalBufBytes s.bufBytes = true
  /-- The buffer's list is in canonical form (log 5). -/
  canonical : s.buf.wf = true
  /-- Only bytes of BUF have been written (R53). -/
  inside : s.buf.below s.bufBytes
  /-- The byte index is in its range (R54). -/
  index : s.eng.i ≤ 4294967296
  /-- The engine's own invariant. -/
  engine : EngineInv s
  /-- While a command runs, DONE and ERR read 0 (R36, R37, R140). -/
  busyClear : Busy s → s.status.done = false ∧ s.status.err = .noErr
  /-- ERR is nonzero only after a completion (R37). -/
  errDone : s.status.done = false → s.status.err = .noErr
  /-- A running command's operands are still in the registers it latched them from (R57). -/
  latched : Busy s → s.eng.a = s.regs.addr ∧
    s.eng.n = if s.eng.op = 0x3#32 then s.regs.len else s.regs.count

/-- Two states that agree in everything but the engine's four working latches `i`, `acc`, `len` and `rx`, which no
transaction can read and every command writes before it reads them (R54). -/
def SameButLatches (s t : State) : Prop :=
  t = { s with eng := { s.eng with i := t.eng.i, acc := t.eng.acc, len := t.eng.len, rx := t.eng.rx } }

end Sys2Proof.Machine
end

