-- ==== Sys2Proof/Certificates/Slice0/Obligations.lean ====
section
/-! DEFINITION. The statements for the provers. Each docstring names the rules of spec/ it formalises. A statement that
rests on a choice of the model says so and names its log entry. -/

open Sys2Proof Sys2Proof.Machine

/-! ## Encodings -/

/-- A few words of R113 and kinds of R116, written out, decode to the instructions they stand for, and a reserved word
and a refused kind do not decode. -/
def Obligations.DecodeReadsSpecWords : Prop :=
  decode (.cmd 0b00000000000000000000000000000011#32) = .ok .encodeRec ∧
  decode (.txn ⟨0b1001#4, 0x00000014#32, 0x49454E44#32⟩) = .ok (.regWrite32 0x00000014#32 0x49454E44#32) ∧
  decode (.txn ⟨0b0010#4, 0x00000008#32, 0#32⟩) = .ok (.bufRead8 0x00000008#32) ∧
  decodeTableWord 32 0x4 = some .decodeRec ∧
  decodeTableWord 8 0xB = some (.bufWrite32 0#32 0#32) ∧
  decode (.cmd 0x00000010#32) = .error (.reservedCommand 0x00000010#32) ∧
  decode (.txn ⟨0b0110#4, 0#32, 0#32⟩) = .error (.refusedKind 0b0110#4)

/-- Decode and encode agree on every instruction with every operand value, through the bits of the encoding as the
opcode table numbers them (the descriptor's layout is the model's, log 10). -/
def Obligations.TableWordsRoundTrip : Prop :=
  ∀ i : Instr,
    decode (encode i) = .ok i ∧
    decodeTableWord (bitsOfFetched (encode i)).1 (bitsOfFetched (encode i)).2 = some i

/-- R113, R114: each of the five words decodes to its command and no other word does; a word is reserved exactly when
`w[31:4] != 0` or `w[3:0]` is in 0x5..0xF. -/
def Obligations.CommandWordsAreExactlyTheTable : Prop :=
  ∀ w : Word,
    (decodeCmd w = .error (.reservedCommand w) ↔
      (w.extractLsb' 4 28 ≠ 0#28 ∨ 5 ≤ (w.extractLsb' 0 4).toNat)) ∧
    (decodeCmd w = .ok .nop ↔ w = 0x00000000#32) ∧
    (decodeCmd w = .ok .crcReset ↔ w = 0x00000001#32) ∧
    (decodeCmd w = .ok .crcFeed ↔ w = 0x00000002#32) ∧
    (decodeCmd w = .ok .encodeRec ↔ w = 0x00000003#32) ∧
    (decodeCmd w = .ok .decodeRec ↔ w = 0x00000004#32)

/-- R116: the six kinds and the transactions they name, with the transaction's own offset and write data; the kinds
refused by kind are REG space at size 1 or 2, BUF space at size 2, and size code 3, read off the S and Z fields of
R115. -/
def Obligations.TransactionKindsAreExactlyTheTable : Prop :=
  ∀ x : Txn,
    (decodeTxn x = .error (.refusedKind x.kind) ↔
      (kindSize x.kind = 3#2 ∨ (kindIsBuf x.kind = false ∧ kindSize x.kind ≠ 2#2) ∨
        (kindIsBuf x.kind = true ∧ kindSize x.kind = 1#2))) ∧
    (decodeTxn x = .error (.refusedKind x.kind) ↔
      x.kind ∈ [0x0#4, 0x1#4, 0x4#4, 0x5#4, 0x6#4, 0x7#4, 0xC#4, 0xD#4, 0xE#4, 0xF#4]) ∧
    (x.kind = 0x8#4 → decodeTxn x = .ok (.regRead32 x.off)) ∧
    (x.kind = 0x9#4 → decodeTxn x = .ok (.regWrite32 x.off x.wdata)) ∧
    (x.kind = 0x2#4 → decodeTxn x = .ok (.bufRead8 x.off)) ∧
    (x.kind = 0x3#4 → decodeTxn x = .ok (.bufWrite8 x.off x.wdata)) ∧
    (x.kind = 0xA#4 → decodeTxn x = .ok (.bufRead32 x.off)) ∧
    (x.kind = 0xB#4 → decodeTxn x = .ok (.bufWrite32 x.off x.wdata))

/-! ## The step -/

/-- A step runs the next entry of the schedule, whichever it is, on the state without that entry; nothing else is added
(the schedule is the model's, log 2, and so is the merged run, log 3). A transaction, or the CMD word a busy engine
holds, that decodes to an instruction is exec of it; a transaction of a refused kind is refused (R146); a reserved CMD
word completes with BAD_CMD (R152); an idle engine does nothing (log 16). With nothing scheduled the engine takes a
row. -/
def Obligations.StepRunsDecodedInstruction : Prop :=
  ∀ (s : State) (rest : List Event),
    (∀ x, s.schedule = .txn x :: rest →
      step s = runTxn x { s with schedule := rest } ∧
      (∀ i, decode (.txn x) = .ok i → step s = exec i { s with schedule := rest }) ∧
      (∀ k, decode (.txn x) = .error (.refusedKind k) → step s = .next { s with
        schedule := rest
        status := { s.status with busErr := true }
        rdata := if x.kind.getLsbD 0 then s.rdata else some 0x00000000#32 })) ∧
    (s.schedule = .engineRun :: rest →
      step s = runCommand { s with schedule := rest } ∧
      (∀ i, s.eng.st ≠ .idle → decode (.cmd s.eng.op) = .ok i → step s = exec i { s with schedule := rest }) ∧
      (∀ w, s.eng.st ≠ .idle → decode (.cmd s.eng.op) = .error (.reservedCommand w) → step s = .next { s with
        schedule := rest
        status := { s.status with err := .badCmd, done := true }
        eng := { s.eng with st := .idle } }) ∧
      (s.eng.st = .idle → step s = .next { s with schedule := rest })) ∧
    (s.schedule = .engineStep :: rest →
      step s = .next (engineRow { s with schedule := rest }) ∧
      (s.eng.st = .idle → step s = .next { s with schedule := rest })) ∧
    (s.schedule = .reset :: rest → step s = .next (resetEvent { s with schedule := rest })) ∧
    (s.schedule = [] → step s = .next (engineRow s) ∧ (s.eng.st = .idle → step s = .next s))

/-- R15: there are no traps. Every step of every state answers a next state. -/
def Obligations.EveryStepAnswersNext : Prop :=
  ∀ s : State, ∃ t, step s = .next t

/-- R270, R271, R44, R49: the reset input, from any state, a running command among them: every register takes its
reset value, the engine is idle, nothing the abandoned command would have written is written, and every BUF byte is
unspecified: a draw of this reset (the free value of log 4). -/
def Obligations.ResetEventRestoresEveryRegister : Prop :=
  ∀ (s : State) (rest : List Event), s.schedule = .reset :: rest →
    ∃ t, step s = .next t ∧
      t.regs.addr = 0#32 ∧ t.regs.count = 0#32 ∧ t.regs.len = 0#32 ∧ t.regs.tag = 0#32 ∧
      t.regs.rxCrc = 0#32 ∧ t.regs.calcCrc = 0#32 ∧ t.regs.consumed = 0#32 ∧
      t.regs.crcAcc = 0xFFFFFFFF#32 ∧ statusWord t = 0x00000000#32 ∧ t.eng.st = .idle ∧
      tagFlagsOf t.regs.tag = 0x00000017#32 ∧ t.regs.crcAcc ^^^ 0xFFFFFFFF#32 = 0x00000000#32 ∧
      t.bufBytes = s.bufBytes ∧ t.schedule = rest ∧
      (∀ a, memRead8 t a = Config.unwrittenByte (s.epoch + 1) a)

/-- R32's reset column, as the host reads it right after reset. -/
def Obligations.ResetRegisterReads : Prop :=
  ∀ off v : Word,
    (off, v) ∈ ([(0x00#32, 0#32), (0x04#32, 0#32), (0x08#32, 0#32), (0x0C#32, 0#32), (0x10#32, 0#32),
      (0x14#32, 0#32), (0x18#32, 0x00000017#32), (0x1C#32, 0#32), (0x20#32, 0#32), (0x24#32, 0#32),
      (0x28#32, 0xFFFFFFFF#32), (0x2C#32, 0#32), (0x30#32, BitVec.ofNat 32 Config.bufBytes)] :
        List (Word × Word)) →
    exec (.regRead32 off) State.reset = .next { State.reset with rdata := some v }

/-- The invariant holds at reset; R7's bounds of P_BUF_BYTES are among it. -/
def Obligations.ResetHasInvariant : Prop := State.reset.Inv

/-- Every step keeps the invariant: the legal buffer size (R7), the canonical buffer inside BUF (R53), the engine's
state and range facts (R86, R187, R205, R226), STATUS while busy (R140) and the latched operands (R57). -/
def Obligations.StepKeepsInvariant : Prop :=
  ∀ s t : State, s.Inv → step s = .next t → t.Inv

/-! ## REG space -/

/-- R140, R81: an aligned register read completes and returns the register's value, except a read of the running
command's write set. -/
def Obligations.RegisterReadReturnsItsValue : Prop :=
  ∀ (s : State) (off : Word), off.toNat % 4 = 0 →
    ¬ (s.eng.st ≠ .idle ∧ regAt off ∈ writeSet s.eng.op) →
    ∃ v, exec (.regRead32 off) s = .next { s with rdata := some v } ∧
      (off = 0x00#32 → v = 0#32) ∧
      (off = 0x04#32 → v = statusWord s) ∧
      (off = 0x08#32 → v = s.regs.addr) ∧
      (off = 0x0C#32 → v = s.regs.count) ∧
      (off = 0x10#32 → v = s.regs.len) ∧
      (off = 0x14#32 → v = s.regs.tag) ∧
      (off = 0x18#32 → v = tagFlagsOf s.regs.tag) ∧
      (off = 0x1C#32 → v = s.regs.rxCrc) ∧
      (off = 0x20#32 → v = s.regs.calcCrc) ∧
      (off = 0x24#32 → v = s.regs.consumed) ∧
      (off = 0x28#32 → v = s.regs.crcAcc) ∧
      (off = 0x2C#32 → v = s.regs.crcAcc ^^^ 0xFFFFFFFF#32) ∧
      (off = 0x30#32 → v = BitVec.ofNat 32 s.bufBytes) ∧
      (0x34 ≤ off.toNat → v = 0#32)

/-- R279 with R56's write sets: while busy, a read of a write-set register returns a draw of its own and changes
nothing; a second read is another draw (the free values of log 7). STATUS is never in a write set: it reads BUSY = 1,
DONE = 0, ERR = 0 and the sticky bits, in every state that meets the invariant. -/
def Obligations.BusyReadsOfTheWriteSetAreDraws : Prop :=
  ∀ s : State, s.eng.st ≠ .idle →
    (∀ off : Word,
      (((s.eng.op = 1#32 ∨ s.eng.op = 2#32) ∧ off ∈ [0x28#32, 0x2C#32]) ∨
        (s.eng.op = 3#32 ∧ off ∈ [0x20#32, 0x24#32]) ∨
        (s.eng.op = 4#32 ∧ off ∈ [0x10#32, 0x14#32, 0x18#32, 0x1C#32, 0x20#32, 0x24#32])) →
      ∃ t, exec (.regRead32 off) s = .next t ∧
        t = { s with rdata := some (Config.busyRead s.draws), draws := s.draws + 1 } ∧
        exec (.regRead32 off) t =
          .next { s with rdata := some (Config.busyRead (s.draws + 1)), draws := s.draws + 2 }) ∧
    (s.Inv → exec (.regRead32 0x04#32) s =
      .next { s with rdata := some (0x00000001#32 ||| (if s.status.cmdOvr then 0x00000100#32 else 0#32) |||
        (if s.status.busErr then 0x00000200#32 else 0#32)) })

/-- R146: the refused transactions and their whole effect, whatever the engine state. A kind's W bit says whether it is
a read (R115). -/
def Obligations.RefusedTransactionOnlySetsBusErr : Prop :=
  ∀ (s : State) (x : Txn),
    (x.kind ∉ [0x8#4, 0x9#4, 0x2#4, 0x3#4, 0xA#4, 0xB#4] ∨
      (x.kind ∈ [0x8#4, 0x9#4] ∧ x.off.toNat % 4 ≠ 0) ∨
      (x.kind ∈ [0x2#4, 0x3#4] ∧ s.bufBytes ≤ x.off.toNat) ∨
      (x.kind ∈ [0xA#4, 0xB#4] ∧ (x.off.toNat % 4 ≠ 0 ∨ s.bufBytes < x.off.toNat + 4))) →
    runTxn x s = .next { s with
      status := { s.status with busErr := true }
      rdata := if x.kind.getLsbD 0 then s.rdata else some 0x00000000#32 }

/-- R278: the transactions refused while busy, their effect, and the two that are not refused. -/
def Obligations.BusyRefusal : Prop :=
  ∀ s : State, s.eng.st ≠ .idle →
    (∀ off v : Word, off ≠ 0x00#32 → off ≠ 0x04#32 →
      exec (.regWrite32 off v) s = .next { s with status := { s.status with busErr := true } }) ∧
    (∀ off : Word, exec (.bufRead8 off) s =
      .next { s with status := { s.status with busErr := true }, rdata := some 0#32 }) ∧
    (∀ off v : Word, exec (.bufWrite8 off v) s =
      .next { s with status := { s.status with busErr := true } }) ∧
    (∀ off : Word, exec (.bufRead32 off) s =
      .next { s with status := { s.status with busErr := true }, rdata := some 0#32 }) ∧
    (∀ off v : Word, exec (.bufWrite32 off v) s =
      .next { s with status := { s.status with busErr := true } }) ∧
    (∀ off : Word, off.toNat % 4 = 0 → ∃ t, exec (.regRead32 off) s = .next t ∧ t.status = s.status) ∧
    (∀ v : Word, exec (.regWrite32 0x04#32 v) s = .next { s with status := { s.status with
      cmdOvr := s.status.cmdOvr && !v.getLsbD 8, busErr := s.status.busErr && !v.getLsbD 9 } })

/-- R277: a CMD write while busy sets CMD_OVR; the word is discarded and the running command is unchanged. -/
def Obligations.CmdWriteWhileBusyIsDropped : Prop :=
  ∀ (s : State) (w : Word), s.eng.st ≠ .idle →
    exec (.regWrite32 0x00#32 w) s = .next { s with status := { s.status with cmdOvr := true } }

/-- R144: a CMD write of any word while idle is accepted: the operands are latched, BUSY becomes 1, DONE and ERR become
0, the sticky bits stay; the write itself takes no engine step. STATUS then reads BUSY = 1 and DONE = 0. -/
def Obligations.CommandAcceptanceLatchesOperands : Prop :=
  ∀ (s : State) (w : Word), s.eng.st = .idle →
    ∃ t, exec (.regWrite32 0x00#32 w) s = .next t ∧
      t = { s with
        status := { s.status with done := false, err := .noErr }
        eng := { s.eng with
          op := w
          a := s.regs.addr
          n := if w = 0x3#32 then s.regs.len else s.regs.count
          st := if w = 0x0#32 then .xNop else if w = 0x1#32 ∨ w = 0x2#32 then .fRun
            else if w = 0x3#32 then .eChk else if w = 0x4#32 then .dChk else .xBad } } ∧
      (statusWord t).getLsbD 0 = true ∧ (statusWord t).getLsbD 1 = false

/-- R143: a STATUS write, busy or not, clears the sticky bits whose W1C bit is 1 and changes no other bit. -/
def Obligations.StatusWriteClearsStickyBits : Prop :=
  ∀ (s : State) (v : Word), ∃ t, exec (.regWrite32 0x04#32 v) s = .next t ∧
    t = { s with status := { s.status with
      cmdOvr := if v.getLsbD 8 then false else s.status.cmdOvr
      busErr := if v.getLsbD 9 then false else s.status.busErr } } ∧
    (∀ j, j ≠ 8 → j ≠ 9 → (statusWord t).getLsbD j = (statusWord s).getLsbD j)

/-- R142: while idle, a write to each RW register stores all 32 bits and changes nothing else; TAG_FLAGS and CRC_RESULT
follow TAG and CRC_ACC at once. -/
def Obligations.RegisterWriteStoresAllBits : Prop :=
  ∀ (s : State) (v : Word), s.eng.st = .idle →
    exec (.regWrite32 0x08#32 v) s = .next { s with regs := { s.regs with addr := v } } ∧
    exec (.regWrite32 0x0C#32 v) s = .next { s with regs := { s.regs with count := v } } ∧
    exec (.regWrite32 0x10#32 v) s = .next { s with regs := { s.regs with len := v } } ∧
    (∃ t, exec (.regWrite32 0x14#32 v) s = .next t ∧ t = { s with regs := { s.regs with tag := v } } ∧
      exec (.regRead32 0x18#32) t = .next { t with rdata := some (tagFlagsOf v) }) ∧
    (∃ t, exec (.regWrite32 0x28#32 v) s = .next t ∧ t = { s with regs := { s.regs with crcAcc := v } } ∧
      exec (.regRead32 0x2C#32) t = .next { t with rdata := some (v ^^^ 0xFFFFFFFF#32) })

/-- R51, R81: a reserved offset (every aligned offset from 0x34 up) reads 0 and ignores writes while idle; a write while
busy is refused (R278); a misaligned access, or one of size 1 or 2, is refused (R146). -/
def Obligations.ReservedOffsetsReadZeroIgnoreWrites : Prop :=
  ∀ (s : State) (off v : Word), 0x34 ≤ off.toNat →
    (off.toNat % 4 = 0 → exec (.regRead32 off) s = .next { s with rdata := some 0#32 }) ∧
    (off.toNat % 4 = 0 → s.eng.st = .idle → exec (.regWrite32 off v) s = .next s) ∧
    (off.toNat % 4 = 0 → s.eng.st ≠ .idle →
      exec (.regWrite32 off v) s = .next { s with status := { s.status with busErr := true } }) ∧
    (off.toNat % 4 ≠ 0 →
      exec (.regRead32 off) s =
        .next { s with status := { s.status with busErr := true }, rdata := some 0#32 } ∧
      exec (.regWrite32 off v) s = .next { s with status := { s.status with busErr := true } }) ∧
    (∀ k : BitVec 4, k ∈ [0x0#4, 0x4#4] → runTxn ⟨k, off, v⟩ s =
      .next { s with status := { s.status with busErr := true }, rdata := some 0#32 }) ∧
    (∀ k : BitVec 4, k ∈ [0x1#4, 0x5#4] → runTxn ⟨k, off, v⟩ s =
      .next { s with status := { s.status with busErr := true } })

/-- R32, R44 to R50: the host can never change RX_CRC, CALC_CRC, CONSUMED or BUF_SIZE; while idle a write to a read-only
register changes nothing at all. -/
def Obligations.ReadOnlyRegistersIgnoreTheHost : Prop :=
  (∀ (s t : State) (x : Txn), runTxn x s = .next t →
    t.regs.rxCrc = s.regs.rxCrc ∧ t.regs.calcCrc = s.regs.calcCrc ∧ t.regs.consumed = s.regs.consumed ∧
    t.bufBytes = s.bufBytes) ∧
  (∀ (s : State) (off v : Word), s.eng.st = .idle →
    off ∈ [0x18#32, 0x1C#32, 0x20#32, 0x24#32, 0x2C#32, 0x30#32] → exec (.regWrite32 off v) s = .next s)

/-- R87: a host read changes nothing but what it returns, except that a refused read sets BUS_ERR and returns 0; a read
is refused where R146 or R278 says so and nowhere else. The model's count of draws moves only at a busy read of the
write set (log 7); any other read is idempotent: made again, it leaves the very same state. -/
def Obligations.HostReadsHaveNoSideEffect : Prop :=
  ∀ (s t : State) (off : Word) (i : Instr) (refused : Prop),
    ((i = .regRead32 off ∧ (refused ↔ off.toNat % 4 ≠ 0)) ∨
      (i = .bufRead8 off ∧ (refused ↔ (s.bufBytes ≤ off.toNat ∨ s.eng.st ≠ .idle))) ∨
      (i = .bufRead32 off ∧
        (refused ↔ (off.toNat % 4 ≠ 0 ∨ s.bufBytes < off.toNat + 4 ∨ s.eng.st ≠ .idle)))) →
    exec i s = .next t →
    (refused → t = { s with status := { s.status with busErr := true }, rdata := some 0x00000000#32 }) ∧
    (¬ refused → t = { s with rdata := t.rdata, draws := t.draws }) ∧
    (t.draws ≠ s.draws →
      i = .regRead32 off ∧ s.eng.st ≠ .idle ∧ regAt off ∈ writeSet s.eng.op ∧ t.draws = s.draws + 1) ∧
    (t.draws = s.draws → exec i t = .next t)

/-! ## BUF space -/

/-- R147, R149: while idle, an in-range byte read returns the byte zero-extended, and an aligned in-range word read
returns the four bytes big-endian; nothing else changes. Every other one is refused and returns 0. -/
def Obligations.BufferReadsReturnTheBytes : Prop :=
  ∀ (s : State) (off : Word),
    (s.eng.st = .idle → off.toNat < s.bufBytes →
      ∃ v : Word, exec (.bufRead8 off) s = .next { s with rdata := some v } ∧
        v.toNat = (memRead8 s off.toNat).toNat) ∧
    (s.eng.st ≠ .idle ∨ s.bufBytes ≤ off.toNat → exec (.bufRead8 off) s =
      .next { s with status := { s.status with busErr := true }, rdata := some 0#32 }) ∧
    (s.eng.st = .idle → off.toNat % 4 = 0 → off.toNat + 4 ≤ s.bufBytes →
      ∃ v : Word, exec (.bufRead32 off) s = .next { s with rdata := some v } ∧
        v.toNat = (memRead8 s off.toNat).toNat * 2 ^ 24 + (memRead8 s (off.toNat + 1)).toNat * 2 ^ 16 +
          (memRead8 s (off.toNat + 2)).toNat * 2 ^ 8 + (memRead8 s (off.toNat + 3)).toNat) ∧
    (s.eng.st ≠ .idle ∨ off.toNat % 4 ≠ 0 ∨ s.bufBytes < off.toNat + 4 → exec (.bufRead32 off) s =
      .next { s with status := { s.status with busErr := true }, rdata := some 0#32 })

/-- R148, R150: while idle, an in-range byte write stores `wdata[7:0]`, an aligned in-range word write stores its four
bytes, the most significant at the lowest offset; every other byte reads as before and nothing else changes. Every
other one is refused and stores nothing. -/
def Obligations.BufferWritesStoreTheBytes : Prop :=
  ∀ (s : State) (off v : Word),
    (s.eng.st = .idle → off.toNat < s.bufBytes →
      ∃ t, exec (.bufWrite8 off v) s = .next t ∧ t = { s with buf := t.buf } ∧
        memRead8 t off.toNat = v.extractLsb' 0 8 ∧
        (∀ x, x ≠ off.toNat → memRead8 t x = memRead8 s x)) ∧
    (s.eng.st ≠ .idle ∨ s.bufBytes ≤ off.toNat → exec (.bufWrite8 off v) s =
      .next { s with status := { s.status with busErr := true } }) ∧
    (s.eng.st = .idle → off.toNat % 4 = 0 → off.toNat + 4 ≤ s.bufBytes →
      ∃ t, exec (.bufWrite32 off v) s = .next t ∧ t = { s with buf := t.buf } ∧
        memRead8 t off.toNat = v.extractLsb' 24 8 ∧
        memRead8 t (off.toNat + 1) = v.extractLsb' 16 8 ∧
        memRead8 t (off.toNat + 2) = v.extractLsb' 8 8 ∧
        memRead8 t (off.toNat + 3) = v.extractLsb' 0 8 ∧
        (∀ x, x < off.toNat ∨ off.toNat + 4 ≤ x → memRead8 t x = memRead8 s x)) ∧
    (s.eng.st ≠ .idle ∨ off.toNat % 4 ≠ 0 ∨ s.bufBytes < off.toNat + 4 → exec (.bufWrite32 off v) s =
      .next { s with status := { s.status with busErr := true } })

/-- R83: a byte written at a+k is bits [31-8k : 24-8k] of the word read at a, and the word's other lanes are the bytes
that were there; a byte read at a+k sees that lane of a word written at a. -/
def Obligations.WordAndByteAccessesAgree : Prop :=
  ∀ (s : State) (off b v : Word) (k : Nat), s.eng.st = .idle → k < 4 → off.toNat % 4 = 0 →
    off.toNat + 4 ≤ s.bufBytes →
    (∃ t u w, exec (.bufWrite8 (off + BitVec.ofNat 32 k) b) s = .next t ∧ exec (.bufRead32 off) t = .next u ∧
      u.rdata = some w ∧ w.extractLsb' (24 - 8 * k) 8 = b.extractLsb' 0 8 ∧
      (∀ m, m < 4 → m ≠ k → w.extractLsb' (24 - 8 * m) 8 = memRead8 s (off.toNat + m))) ∧
    (∃ t u w, exec (.bufWrite32 off v) s = .next t ∧ exec (.bufRead8 (off + BitVec.ofNat 32 k)) t = .next u ∧
      u.rdata = some w ∧ w.toNat = (v.extractLsb' (24 - 8 * k) 8).toNat)

/-! ## Commands without a record -/

/-- R151: NOP completes with ERR = NONE and DONE = 1 and touches nothing else; its first engine step does the same. -/
def Obligations.NopOnlyReportsCompletion : Prop :=
  ∀ s : State,
    exec .nop s = .next { s with
      status := { s.status with err := .noErr, done := true }, eng := { s.eng with st := .idle } } ∧
    (s.eng.st = .xNop → engineRow s = { s with
      status := { s.status with err := .noErr, done := true }, eng := { s.eng with st := .idle } })

/-- R152, with R114's reserved words: a reserved CMD word written while idle is accepted, and its first engine step
reports BAD_CMD (STATUS reads 0x00000042 beside the sticky bits) and changes nothing but STATUS. The model's merged run
(log 3) is that one step. -/
def Obligations.ReservedCommandCompletesBadCmd : Prop :=
  ∀ (s : State) (w : Word),
    s.eng.st = .idle → (w.extractLsb' 4 28 ≠ 0#28 ∨ 5 ≤ (w.extractLsb' 0 4).toNat) →
    ∃ t u, exec (.regWrite32 0x00#32 w) s = .next t ∧ t.eng.st = .xBad ∧ engineRow t = u ∧
      runCommand t = .next u ∧ u = { s with status := u.status, eng := u.eng } ∧ u.eng.st = .idle ∧
      u.status = { s.status with err := .badCmd, done := true } ∧
      statusWord u = 0x00000042#32 ||| (if s.status.cmdOvr then 0x00000100#32 else 0#32) |||
        (if s.status.busErr then 0x00000200#32 else 0#32)

/-- R185: CRC_RESET sets CRC_ACC to 0xFFFFFFFF, so that CRC_RESULT reads 0, and touches no other register and no byte. -/
def Obligations.CrcResetCompletes : Prop :=
  ∀ s : State, ∃ t, exec .crcReset s = .next t ∧
    t = { s with
      regs := { s.regs with crcAcc := 0xFFFFFFFF#32 }
      status := { s.status with err := .noErr, done := true }
      eng := { s.eng with st := .idle } } ∧
    regValue t .crcResult = 0x00000000#32

/-- R186: CRC_FEED folds `BUF[a .. a+n)` into CRC_ACC, or reports RANGE and keeps CRC_ACC, on the unbounded sum; no
bytes leave CRC_ACC as it is. -/
def Obligations.CrcFeedFoldsItsRange : Prop :=
  ∀ s : State,
    (engA s + engN s ≤ s.bufBytes → exec .crcFeed s = .next { s with
      regs := { s.regs with crcAcc := crcFold s.regs.crcAcc (memBytes s (engA s) (engN s)) }
      status := { s.status with err := .noErr, done := true }
      eng := { s.eng with st := .idle } }) ∧
    (s.bufBytes < engA s + engN s → exec .crcFeed s = .next { s with
      status := { s.status with err := .range, done := true }
      eng := { s.eng with st := .idle } }) ∧
    (engN s = 0 → ∀ t, exec .crcFeed s = .next t → t.regs = s.regs)

/-- R182, R183, R188: feeding a range in two parts gives the CRC_ACC of feeding it whole; from a fresh accumulator
CRC_RESULT is the CRC-32 of the whole range. -/
def Obligations.CrcFeedsCompose : Prop :=
  ∀ (s u t1 t2 t : State) (n1 n2 : Word),
    engA s + n1.toNat + n2.toNat ≤ s.bufBytes → engN s = n1.toNat + n2.toNat →
    exec .crcFeed { s with eng := { s.eng with n := n1 } } = .next t1 →
    u.buf = s.buf → u.epoch = s.epoch → u.bufBytes = s.bufBytes → u.regs.crcAcc = t1.regs.crcAcc →
    engA u = engA s + n1.toNat → u.eng.n = n2 →
    exec .crcFeed u = .next t2 → exec .crcFeed s = .next t →
    t2.regs.crcAcc = t.regs.crcAcc ∧
    (s.regs.crcAcc = 0xFFFFFFFF#32 →
      regValue t2 .crcResult = crc32 (memBytes s (engA s) n1.toNat ++ memBytes s (engA s + n1.toNat) n2.toNat))

/-- R184: the table form of the byte update is the bit-serial one, for every state and byte, and its listed entries. -/
def Obligations.TableFormAgreesWithBitSerial : Prop :=
  (∀ (c : Word) (b : Byte),
    crcByte c b = (c >>> 8) ^^^ crcByte 0#32 ((c ^^^ b.setWidth 32).extractLsb' 0 8) ∧
    crcByteByTable c b = crcByte c b) ∧
  crcTable 0x00#8 = 0x00000000#32 ∧ crcTable 0x01#8 = 0x77073096#32 ∧ crcTable 0x02#8 = 0xEE0E612C#32 ∧
  crcTable 0x80#8 = 0xEDB88320#32 ∧ crcTable 0xFF#8 = 0x2D02EF8D#32

/-- R180's residue: a message followed by its CRC, stored least significant byte first, always leaves the raw register
at 0xDEBB20E3. -/
def Obligations.CrcResidueOfMessageAndItsChecksum : Prop :=
  ∀ m : List Byte,
    crcFold 0xFFFFFFFF#32 (m ++ [(crc32 m).extractLsb' 0 8, (crc32 m).extractLsb' 8 8,
      (crc32 m).extractLsb' 16 8, (crc32 m).extractLsb' 24 8]) = 0xDEBB20E3#32

/-- R189: two messages that differ in exactly one byte have different CRCs (a single flipped bit among them). -/
def Obligations.OneByteChangeChangesTheCrc : Prop :=
  ∀ (p q : List Byte) (x y : Byte), x ≠ y → crc32 (p ++ x :: q) ≠ crc32 (p ++ y :: q)

/-! ## ENCODE -/

/-- R202: a successful ENCODE completes and writes exactly CALC_CRC, CONSUMED, the 8 header bytes and the 4 checksum
bytes; every other byte, the payload among them, reads as before, and every other register is unchanged. -/
def Obligations.EncodeSuccessWritesExactlyTheRecord : Prop :=
  ∀ s : State, engA s + 12 + engN s ≤ s.bufBytes →
    ∃ t, exec .encodeRec s = .next t ∧
      t = { s with
        regs := { s.regs with
          calcCrc := crc32 (tagBytes s.regs.tag ++ memBytes s (engA s + 8) (engN s))
          consumed := BitVec.ofNat 32 (12 + engN s) }
        status := { s.status with err := .noErr, done := true }
        eng := { s.eng with st := .idle }
        buf := t.buf } ∧
      (∀ k, k < 4 → memRead8 t (engA s + k) = s.eng.n.extractLsb' (24 - 8 * k) 8) ∧
      (∀ k, k < 4 → memRead8 t (engA s + 4 + k) = s.regs.tag.extractLsb' (24 - 8 * k) 8) ∧
      (∀ k, k < 4 → memRead8 t (engA s + 8 + engN s + k) = t.regs.calcCrc.extractLsb' (24 - 8 * k) 8) ∧
      (∀ x, ¬ (engA s ≤ x ∧ x < engA s + 8) →
        ¬ (engA s + 8 + engN s ≤ x ∧ x < engA s + 12 + engN s) → memRead8 t x = memRead8 s x)

/-- R203, R243: an ENCODE whose record would pass the end of BUF writes CONSUMED = 0 and STATUS and nothing else. A
length of 2^32 - 12 or more is always so. -/
def Obligations.EncodeOutOfRangeWritesOnlyConsumed : Prop :=
  ∀ s : State,
    (s.bufBytes < engA s + 12 + engN s → exec .encodeRec s = .next { s with
      regs := { s.regs with consumed := 0#32 }
      status := { s.status with err := .range, done := true }
      eng := { s.eng with st := .idle } }) ∧
    (legalBufBytes s.bufBytes = true → 4294967284 ≤ engN s → s.bufBytes < engA s + 12 + engN s)

/-- R110, R112, R82, R84: after a successful ENCODE the buffer holds a record of the layout: big-endian length, tag
bytes verbatim, checksum over tag and payload and nothing else; a host word read at an aligned ADDR + 4 returns TAG. -/
def Obligations.EncodedRecordHasTheLayout : Prop :=
  ∀ s t : State, legalBufBytes s.bufBytes = true → engA s + 12 + engN s ≤ s.bufBytes →
    exec .encodeRec s = .next t →
    memRead32 t (engA s) = s.eng.n ∧
    memBytes t (engA s + 4) 4 = tagBytes s.regs.tag ∧
    memBytes t (engA s + 8) (engN s) = memBytes s (engA s + 8) (engN s) ∧
    memRead32 t (engA s + 8 + engN s) =
      crc32 (memBytes t (engA s + 4) 4 ++ memBytes t (engA s + 8) (engN s)) ∧
    (engA s % 4 = 0 → exec (.bufRead32 (s.eng.a + 4#32)) t = .next { t with rdata := some s.regs.tag })

/-! ## DECODE -/

/-- R216, R227: the five outcomes of DECODE, the checks in their order (R246), with every register each of them writes
and keeps. BUF, ADDR, COUNT and CRC_ACC are never written. -/
def Obligations.DecodeOutcomes : Prop :=
  ∀ s : State,
    (s.bufBytes < engA s + engN s → exec .decodeRec s = .next { s with
      regs := { s.regs with consumed := 0#32 }
      status := { s.status with err := .range, done := true }
      eng := { s.eng with st := .idle } }) ∧
    (engA s + engN s ≤ s.bufBytes → engN s < 12 → exec .decodeRec s = .next { s with
      regs := { s.regs with consumed := 0#32 }
      status := { s.status with err := .truncated, done := true }
      eng := { s.eng with st := .idle } }) ∧
    (∀ l tag rx c : Word, engA s + engN s ≤ s.bufBytes → 12 ≤ engN s →
      l = memRead32 s (engA s) → tag = memRead32 s (engA s + 4) →
      rx = memRead32 s (engA s + 8 + l.toNat) →
      c = crc32 (memBytes s (engA s + 4) 4 ++ memBytes s (engA s + 8) l.toNat) →
      (engN s < 12 + l.toNat → exec .decodeRec s = .next { s with
        regs := { s.regs with len := l, tag := tag, consumed := 0#32 }
        status := { s.status with err := .truncated, done := true }
        eng := { s.eng with st := .idle } }) ∧
      (12 + l.toNat ≤ engN s → rx ≠ c → exec .decodeRec s = .next { s with
        regs := { s.regs with len := l, tag := tag, rxCrc := rx, calcCrc := c, consumed := 0#32 }
        status := { s.status with err := .checksumMismatch, done := true }
        eng := { s.eng with st := .idle } }) ∧
      (12 + l.toNat ≤ engN s → rx = c → exec .decodeRec s = .next { s with
        regs := { s.regs with
          len := l, tag := tag, rxCrc := rx, calcCrc := c, consumed := BitVec.ofNat 32 (12 + l.toNat) }
        status := { s.status with err := .noErr, done := true }
        eng := { s.eng with st := .idle } }))

/-- R224: DECODE reads nothing at or after the end of the record: two buffers that agree on the record's bytes give the
same result. -/
def Obligations.DecodeIgnoresBytesOutsideTheRecord : Prop :=
  ∀ (s t : State) (m : Memory),
    (∀ x, engA s ≤ x → x < engA s + 12 + (memRead32 s (engA s)).toNat →
      memRead8 { s with buf := m } x = memRead8 s x) →
    exec .decodeRec s = .next t →
    exec .decodeRec { s with buf := m } = .next { t with buf := m }

/-- R189, R222: flipping any one bit of the checksum field of a record that DECODE accepts makes DECODE report
CHECKSUM_MISMATCH. -/
def Obligations.ChecksumFieldFlipIsRejected : Prop :=
  ∀ (s t : State) (k : Nat), k < 32 → exec .decodeRec s = .next t → t.status.err = .noErr →
    ∃ u, exec .decodeRec (memWrite32 (engA s + 8 + t.regs.len.toNat)
        (t.regs.rxCrc ^^^ (1#32 <<< k)) s) = .next u ∧
      u.status.err = .checksumMismatch ∧ u.regs.calcCrc = t.regs.calcCrc ∧ u.regs.consumed = 0#32

/-- R47: after ENCODE or DECODE, CONSUMED is nonzero exactly when the command succeeded. -/
def Obligations.ConsumedMarksSuccess : Prop :=
  ∀ (s t : State) (i : Instr), legalBufBytes s.bufBytes = true → (i = .encodeRec ∨ i = .decodeRec) →
    exec i s = .next t → (t.regs.consumed ≠ 0#32 ↔ t.status.err = .noErr)

/-- R225, the round trip: DECODE of what ENCODE framed, with the same ADDR and any COUNT that holds the record and fits,
succeeds and gives back length, tag and checksum, and leaves BUF as it was. -/
def Obligations.EncodeThenDecodeRoundTrips : Prop :=
  ∀ s t u : State, engA s + 12 + engN s ≤ s.bufBytes → exec .encodeRec s = .next t →
    u.buf = t.buf → u.epoch = t.epoch → u.bufBytes = t.bufBytes → u.eng.a = s.eng.a →
    12 + engN s ≤ engN u → engA u + engN u ≤ u.bufBytes →
    ∃ v, exec .decodeRec u = .next v ∧ v.status.err = .noErr ∧ v.regs.len = s.eng.n ∧
      v.regs.tag = s.regs.tag ∧ v.regs.rxCrc = t.regs.calcCrc ∧ v.regs.calcCrc = t.regs.calcCrc ∧
      v.regs.consumed = BitVec.ofNat 32 (12 + engN s) ∧ v.buf = u.buf

/-- R225, idempotence: take any record that DECODE accepts; an ENCODE from the registers DECODE left, at the same ADDR,
succeeds, rewrites the same bytes (every byte of BUF reads as before) and reports the same CALC_CRC and CONSUMED. -/
def Obligations.ReencodeOfADecodedRecordIsIdempotent : Prop :=
  ∀ s v w : State, exec .decodeRec s = .next v → v.status.err = .noErr →
    w.buf = v.buf → w.epoch = v.epoch → w.bufBytes = v.bufBytes → w.regs.tag = v.regs.tag →
    w.eng.a = s.eng.a → w.eng.n = v.regs.len →
    ∃ t, exec .encodeRec w = .next t ∧ t.status.err = .noErr ∧ t.regs.calcCrc = v.regs.calcCrc ∧
      t.regs.consumed = v.regs.consumed ∧ (∀ x, memRead8 t x = memRead8 s x)

/-! ## The reference machines -/

/-- R187: from acceptance, the reference machine of CRC_RESET and CRC_FEED stays busy until it reaches exactly the
command's completion, after at least one step. -/
def Obligations.CrcMachineReachesItsCompletion : Prop :=
  ∀ (s t : State) (i : Instr), s.eng.st = .fRun →
    ((s.eng.op = 1#32 ∧ i = .crcReset) ∨ (s.eng.op = 2#32 ∧ i = .crcFeed)) → exec i s = .next t →
    ∃ k, 1 ≤ k ∧ (∀ j, j < k → (engineRows j s).eng.st ≠ .idle) ∧ SameButLatches t (engineRows k s)

/-- R205: from acceptance, the reference machine of ENCODE stays busy until it reaches exactly the values of R201. -/
def Obligations.EncodeMachineReachesItsCompletion : Prop :=
  ∀ s t : State, s.eng.st = .eChk → exec .encodeRec s = .next t →
    ∃ k, 1 ≤ k ∧ (∀ j, j < k → (engineRows j s).eng.st ≠ .idle) ∧ SameButLatches t (engineRows k s)

/-- R226: from acceptance, the reference machine of DECODE stays busy until it reaches exactly the values of R216. -/
def Obligations.DecodeMachineReachesItsCompletion : Prop :=
  ∀ s t : State, s.eng.st = .dChk → exec .decodeRec s = .next t →
    ∃ k, 1 ≤ k ∧ (∀ j, j < k → (engineRows j s).eng.st ≠ .idle) ∧ SameButLatches t (engineRows k s)

/-- R187, R205, R226 ("rows may be merged or split"): however many reference rows an accepted command has taken, running
the rest of it in one step gives the completion that running all of it in one step gives. -/
def Obligations.MergedAndSplitRowsAgree : Prop :=
  ∀ (s t : State) (j : Nat), s.Inv → s.eng.st = firstState s.eng.op → runCommand s = .next t →
    (engineRows j s).eng.st ≠ .idle →
    ∃ u, runCommand (engineRows j s) = .next u ∧ SameButLatches t u

/-- R283: every accepted command completes: in a state that meets the invariant, with nothing else scheduled, a busy
machine becomes idle with DONE = 1 after finitely many steps, at least one. -/
def Obligations.BusyMachineCompletes : Prop :=
  ∀ s : State, s.Inv → s.eng.st ≠ .idle → s.schedule = [] →
    ∃ (k : Nat) (t : State), 1 ≤ k ∧ Host.Core.run Sys2Proof.core k s = .next t ∧ t.eng.st = .idle ∧
      t.status.done = true

/-- R245, R36, R37: completion is one engine step: a row that leaves the engine busy changes no STATUS bit, and the row
that makes it idle sets DONE in that same step; neither touches the sticky bits. -/
def Obligations.CompletionIsOneStep : Prop :=
  ∀ s : State, s.eng.st ≠ .idle →
    ((engineRow s).eng.st ≠ .idle → (engineRow s).status = s.status) ∧
    ((engineRow s).eng.st = .idle → (engineRow s).status.done = true ∧
      (engineRow s).status.cmdOvr = s.status.cmdOvr ∧ (engineRow s).status.busErr = s.status.busErr)

/-- R205, R226, R56, R202: a reference row changes a buffer byte only where ENCODE writes its header or its trailer,
inside BUF; CRC_FEED and DECODE change none. -/
def Obligations.EngineRowWritesOnlyTheRecord : Prop :=
  ∀ (s : State) (x : Nat), s.Inv → memRead8 (engineRow s) x ≠ memRead8 s x →
    s.eng.op = 3#32 ∧ x < s.bufBytes ∧
      ((engA s ≤ x ∧ x < engA s + 8) ∨ (engA s + 8 + engN s ≤ x ∧ x < engA s + 12 + engN s))

/-! ## Rules of the whole machine -/

/-- R57, R92, R247: while a command runs, no host transaction changes its latches, any register, what any buffer byte
reads as, DONE or ERR. -/
def Obligations.HostCannotDisturbARunningCommand : Prop :=
  ∀ (s t : State) (x : Txn), s.eng.st ≠ .idle → runTxn x s = .next t →
    t.eng = s.eng ∧ t.regs = s.regs ∧ t.buf = s.buf ∧ t.epoch = s.epoch ∧ t.bufBytes = s.bufBytes ∧
    (∀ a, memRead8 t a = memRead8 s a) ∧ t.status.done = s.status.done ∧ t.status.err = s.status.err

/-- R34, R36, R37, D35: a host transaction changes DONE or ERR, or makes the engine busy, only by a CMD write while idle,
and then DONE and ERR become 0: the host can neither fake nor lose a result. -/
def Obligations.HostNeverFakesAResult : Prop :=
  ∀ (s t : State) (x : Txn), runTxn x s = .next t →
    (t.eng = s.eng ∧ t.status.done = s.status.done ∧ t.status.err = s.status.err) ∨
    (s.eng.st = .idle ∧ x.kind = 0x9#4 ∧ x.off = 0x00#32 ∧ t.status.done = false ∧ t.status.err = .noErr)

/-- R38, R39, R40, R41, R48: the engine, by a row or by a merged run, never writes ADDR, COUNT, the sticky bits or
anything outside the block; and only CRC_RESET and CRC_FEED write CRC_ACC. -/
def Obligations.EngineLeavesHostOperandsAlone : Prop :=
  ∀ s t : State, (t = engineRow s ∨ runCommand s = .next t) →
    t.regs.addr = s.regs.addr ∧ t.regs.count = s.regs.count ∧ t.status.cmdOvr = s.status.cmdOvr ∧
    t.status.busErr = s.status.busErr ∧ t.bufBytes = s.bufBytes ∧ t.rdata = s.rdata ∧
    t.schedule = s.schedule ∧ t.epoch = s.epoch ∧ t.draws = s.draws ∧
    (EngineInv s → s.eng.op ≠ 1#32 → s.eng.op ≠ 2#32 → t.regs.crcAcc = s.regs.crcAcc)

/-- R57, R248: a command's result is a function of ADDR, COUNT, LEN, TAG and CRC_ACC as latched, and BUF: two states that
agree on these end with the same ERR and the same BUF, and each register the command writes gets the same value. -/
def Obligations.ResultIsAFunctionOfItsInputs : Prop :=
  ∀ (s s' t t' : State) (i : Instr), i ∈ [Instr.nop, .crcReset, .crcFeed, .encodeRec, .decodeRec] →
    s'.buf = s.buf → s'.epoch = s.epoch → s'.bufBytes = s.bufBytes →
    s'.eng.a = s.eng.a → s'.eng.n = s.eng.n → s'.regs.addr = s.regs.addr → s'.regs.count = s.regs.count →
    s'.regs.len = s.regs.len → s'.regs.tag = s.regs.tag → s'.regs.crcAcc = s.regs.crcAcc →
    exec i s = .next t → exec i s' = .next t' →
    t'.status.err = t.status.err ∧ t'.buf = t.buf ∧ t'.regs.addr = t.regs.addr ∧ t'.regs.count = t.regs.count ∧
    t'.regs.len = t.regs.len ∧ t'.regs.tag = t.regs.tag ∧ t'.regs.crcAcc = t.regs.crcAcc ∧
    (t'.regs.rxCrc = t.regs.rxCrc ∨ (t'.regs.rxCrc = s'.regs.rxCrc ∧ t.regs.rxCrc = s.regs.rxCrc)) ∧
    (t'.regs.calcCrc = t.regs.calcCrc ∨ (t'.regs.calcCrc = s'.regs.calcCrc ∧ t.regs.calcCrc = s.regs.calcCrc)) ∧
    (t'.regs.consumed = t.regs.consumed ∨
      (t'.regs.consumed = s'.regs.consumed ∧ t.regs.consumed = s.regs.consumed))

/-- R54, U3: the hidden latches of an idle engine are unobservable: whatever they hold, a transaction leaves the same
state but for them, and a command it starts holds the same word and operands. The second clause is about the model's
merged run, which does a command's pseudocode from its operands whatever row the engine has reached (log 3, log 13):
two states that differ only in the working latches have merged runs that differ only in them. -/
def Obligations.IdleLatchesAreUnobservable : Prop :=
  (∀ (s t : State) (e : Engine) (x : Txn), s.eng.st = .idle → e.st = .idle → runTxn x s = .next t →
    ∃ u, runTxn x { s with eng := e } = .next u ∧ u = { t with eng := u.eng } ∧ u.eng.st = t.eng.st ∧
      (t.eng.st ≠ .idle → u.eng.op = t.eng.op ∧ u.eng.a = t.eng.a ∧ u.eng.n = t.eng.n)) ∧
  (∀ s t u v : State, SameButLatches s t → runCommand s = .next u → runCommand t = .next v →
    SameButLatches u v)

/-! ## Flag words and the host's notation -/

/-- R160 to R165: each bit of TAG_FLAGS, from the bits of TAG (tag byte 0 is TAG[31:24], so its bit 5 is TAG[29]). -/
def Obligations.TagFlagsReadTheTagBits : Prop :=
  ∀ tag : Word,
    (tagFlagsOf tag).getLsbD 0 = !tag.getLsbD 29 ∧
    (tagFlagsOf tag).getLsbD 1 = !tag.getLsbD 21 ∧
    (tagFlagsOf tag).getLsbD 2 = !tag.getLsbD 13 ∧
    (tagFlagsOf tag).getLsbD 3 = tag.getLsbD 5 ∧
    (tagFlagsOf tag).getLsbD 4 = !tag.getLsbD 13 ∧
    ((tagFlagsOf tag).getLsbD 5 = true ↔ ∀ k, k < 4 →
      ((0x41 ≤ (tag.extractLsb' (24 - 8 * k) 8).toNat ∧ (tag.extractLsb' (24 - 8 * k) 8).toNat ≤ 0x5A) ∨
        (0x61 ≤ (tag.extractLsb' (24 - 8 * k) 8).toNat ∧ (tag.extractLsb' (24 - 8 * k) 8).toNat ≤ 0x7A))) ∧
    (∀ j, 6 ≤ j → (tagFlagsOf tag).getLsbD j = false)

/-- R34, R35, R37: the fields of the STATUS word; its reserved bits read 0 and ERR is one of the codes 0 to 4 (U8). -/
def Obligations.StatusWordLayout : Prop :=
  ∀ s : State,
    ((statusWord s).getLsbD 0 = true ↔ s.eng.st ≠ .idle) ∧
    (statusWord s).getLsbD 1 = s.status.done ∧
    (statusWord s).extractLsb' 2 2 = 0#2 ∧
    ((statusWord s).extractLsb' 4 3).toNat = (match s.status.err with
      | .noErr => 0
      | .truncated => 1
      | .checksumMismatch => 2
      | .range => 3
      | .badCmd => 4) ∧
    (statusWord s).getLsbD 7 = false ∧
    (statusWord s).getLsbD 8 = s.status.cmdOvr ∧
    (statusWord s).getLsbD 9 = s.status.busErr ∧
    (statusWord s).extractLsb' 10 22 = 0#22

/-- R119, R120: the transactions each line of the host notation stands for, in order. A read's write data is unused and
written 0 (log 23); how often POLL repeats is a parameter, and the offsets of WBS are 32-bit sums (log 21). Every one of
these transactions decodes to an instruction. -/
def Obligations.HostLinesAreTableTransactions : Prop :=
  (∀ reg imm : Word,
    (HostLine.rd reg).expand = [⟨0x8#4, reg, 0#32⟩] ∧
    (HostLine.wr reg imm).expand = [⟨0x9#4, reg, imm⟩]) ∧
  (∀ (off imm : Word) (b : Byte),
    (HostLine.rb off).expand = [⟨0x2#4, off, 0#32⟩] ∧
    (HostLine.wb off b).expand = [⟨0x3#4, off, b.setWidth 32⟩] ∧
    (HostLine.rw off).expand = [⟨0xA#4, off, 0#32⟩] ∧
    (HostLine.ww off imm).expand = [⟨0xB#4, off, imm⟩]) ∧
  (HostLine.cmd .nop).expand = [⟨0x9#4, 0x00#32, 0x00000000#32⟩] ∧
  (HostLine.cmd .crcReset).expand = [⟨0x9#4, 0x00#32, 0x00000001#32⟩] ∧
  (HostLine.cmd .crcFeed).expand = [⟨0x9#4, 0x00#32, 0x00000002#32⟩] ∧
  (HostLine.cmd .encodeRec).expand = [⟨0x9#4, 0x00#32, 0x00000003#32⟩] ∧
  (HostLine.cmd .decodeRec).expand = [⟨0x9#4, 0x00#32, 0x00000004#32⟩] ∧
  (∀ n : Nat, (HostLine.poll n).expand.length = n + 1 ∧
    ∀ x ∈ (HostLine.poll n).expand, x = ⟨0x8#4, 0x04#32, 0#32⟩) ∧
  HostLine.clr.expand = [⟨0x9#4, 0x04#32, 0x00000300#32⟩] ∧
  (∀ (off : Word) (text : List Byte), (HostLine.wbs off text).expand.length = text.length ∧
    ∀ (k : Nat) (b : Byte), text[k]? = some b →
      (HostLine.wbs off text).expand[k]? = some ⟨0x3#4, off + BitVec.ofNat 32 k, b.setWidth 32⟩) ∧
  (∀ (c : CommandName) (n : Nat),
    (HostLine.run c n).expand = (HostLine.cmd c).expand ++ (HostLine.poll n).expand) ∧
  (∀ (l : HostLine) (x : Txn), x ∈ l.expand → ∃ i, decodeTxn x = .ok i)
end

