-- ==== Sys2Proof/Laws/Bits.lean ====
section
/-! SUPPORT. The laws of lanes and big-endian words (R12, R83, R226). -/

namespace Sys2Proof.Machine

theorem lane_getLsbD (v : Word) (k j : Nat) (hj : j < 8) :
    (lane v k).getLsbD j = v.getLsbD (24 - 8 * k + j) := by
  simp [lane, hj]

@[simp] theorem lane_be32_zero (b0 b1 b2 b3 : Byte) : lane (be32 b0 b1 b2 b3) 0 = b0 := by
  apply BitVec.eq_of_getLsbD_eq
  intro i hi
  rw [lane_getLsbD _ _ _ hi]
  simp only [be32, BitVec.getLsbD_append]
  have h1 : ¬ 24 - 8 * 0 + i < 8 := by omega
  have h2 : ¬ 24 - 8 * 0 + i - 8 < 8 := by omega
  have h3 : ¬ 24 - 8 * 0 + i - 8 - 8 < 8 := by omega
  simp [h1, h2, h3]
  congr 1; omega

@[simp] theorem lane_be32_one (b0 b1 b2 b3 : Byte) : lane (be32 b0 b1 b2 b3) 1 = b1 := by
  apply BitVec.eq_of_getLsbD_eq
  intro i hi
  rw [lane_getLsbD _ _ _ hi]
  simp only [be32, BitVec.getLsbD_append]
  have h1 : ¬ 24 - 8 * 1 + i < 8 := by omega
  have h2 : ¬ 24 - 8 * 1 + i - 8 < 8 := by omega
  have h3 : 24 - 8 * 1 + i - 8 - 8 < 8 := by omega
  simp [h1, h2, h3]
  congr 1; omega

@[simp] theorem lane_be32_two (b0 b1 b2 b3 : Byte) : lane (be32 b0 b1 b2 b3) 2 = b2 := by
  apply BitVec.eq_of_getLsbD_eq
  intro i hi
  rw [lane_getLsbD _ _ _ hi]
  simp only [be32, BitVec.getLsbD_append]
  have h1 : ¬ 24 - 8 * 2 + i < 8 := by omega
  have h2 : 24 - 8 * 2 + i - 8 < 8 := by omega
  simp only [h1, h2, if_true, if_false]
  congr 1; omega

@[simp] theorem lane_be32_three (b0 b1 b2 b3 : Byte) : lane (be32 b0 b1 b2 b3) 3 = b3 := by
  apply BitVec.eq_of_getLsbD_eq
  intro i hi
  rw [lane_getLsbD _ _ _ hi]
  simp only [be32, BitVec.getLsbD_append]
  have h1 : 24 - 8 * 3 + i < 8 := by omega
  simp only [h1, if_true]
  congr 1; omega

/-- Two words with the same lanes are the same word. -/
theorem word_ext_lanes (v w : Word) (h0 : lane v 0 = lane w 0) (h1 : lane v 1 = lane w 1)
    (h2 : lane v 2 = lane w 2) (h3 : lane v 3 = lane w 3) : v = w := by
  have key : ∀ k, k < 4 → ∀ j, j < 8 → v.getLsbD (24 - 8 * k + j) = w.getLsbD (24 - 8 * k + j) := by
    intro k hk j hj
    rw [← lane_getLsbD v k j hj, ← lane_getLsbD w k j hj]
    obtain rfl | rfl | rfl | rfl : k = 0 ∨ k = 1 ∨ k = 2 ∨ k = 3 := by omega
    all_goals simp_all
  apply BitVec.eq_of_getLsbD_eq
  intro i hi
  have := key (3 - i / 8) (by omega) (i % 8) (by omega)
  have e : 24 - 8 * (3 - i / 8) + i % 8 = i := by omega
  rwa [e] at this

/-- `BE32` of a word's bytes is the word (R12). -/
@[simp] theorem be32_lanes (v : Word) : be32 (lane v 0) (lane v 1) (lane v 2) (lane v 3) = v :=
  word_ext_lanes _ _ (by simp) (by simp) (by simp) (by simp)

/-- R12: `BE32(b0,b1,b2,b3) = b0*2^24 + b1*2^16 + b2*2^8 + b3`. -/
theorem be32_toNat (b0 b1 b2 b3 : Byte) :
    (be32 b0 b1 b2 b3).toNat =
      b0.toNat * 2 ^ 24 + b1.toNat * 2 ^ 16 + b2.toNat * 2 ^ 8 + b3.toNat := by
  have h0 := b0.isLt
  have h1 := b1.isLt
  have h2 := b2.isLt
  have h3 := b3.isLt
  simp only [be32, BitVec.toNat_append]
  rw [← Nat.shiftLeft_add_eq_or_of_lt (by omega), ← Nat.shiftLeft_add_eq_or_of_lt (by omega),
    ← Nat.shiftLeft_add_eq_or_of_lt (by omega)]
  simp only [Nat.shiftLeft_eq]
  omega

theorem setLane_getLsbD (v : Word) (k j : Nat) (b : Byte) (hk : k < 4) (hj : j < 32) :
    (setLane v k b).getLsbD j =
      if 24 - 8 * k ≤ j ∧ j < 32 - 8 * k then b.getLsbD (j - (24 - 8 * k)) else v.getLsbD j := by
  obtain rfl | rfl | rfl | rfl : k = 0 ∨ k = 1 ∨ k = 2 ∨ k = 3 := by omega
  all_goals
    have hm : (0x000000FF#32 : Word) = BitVec.ofNat 32 (2 ^ 8 - 1) := by decide
    simp only [setLane, hm, BitVec.getLsbD_or, BitVec.getLsbD_and, BitVec.getLsbD_not, BitVec.getLsbD_shiftLeft,
      BitVec.getLsbD_setWidth, BitVec.getLsbD_ofNat, Nat.testBit_two_pow_sub_one]
    grind

/-- A lane that is written reads back; another lane is kept (R226). -/
theorem lane_setLane (v : Word) (k m : Nat) (b : Byte) (hk : k < 4) (hm : m < 4) :
    lane (setLane v k b) m = if m = k then b else lane v m := by
  apply BitVec.eq_of_getLsbD_eq
  intro i hi
  rw [lane_getLsbD _ _ _ hi, setLane_getLsbD _ _ _ _ hk (by omega)]
  by_cases h : m = k
  · subst h
    have hc : 24 - 8 * m ≤ 24 - 8 * m + i ∧ 24 - 8 * m + i < 32 - 8 * m := by omega
    simp [hc]
  · have hc : ¬ (24 - 8 * k ≤ 24 - 8 * m + i ∧ 24 - 8 * m + i < 32 - 8 * k) := by omega
    rw [if_neg hc, if_neg h, lane_getLsbD _ _ _ hi]

/-- Writing all four lanes of any word gives `BE32` of the bytes (R226). -/
theorem setLane_all (v : Word) (b0 b1 b2 b3 : Byte) :
    setLane (setLane (setLane (setLane v 0 b0) 1 b1) 2 b2) 3 b3 = be32 b0 b1 b2 b3 := by
  apply word_ext_lanes <;> simp [lane_setLane]

end Sys2Proof.Machine
end

