-- ==== Sys2Proof/Laws/Crc.lean ====
section
/-! SUPPORT. The laws of the CRC primitives (R181 to R183): the fold over a concatenation, and the linearity of the
shifts over XOR. -/

namespace Sys2Proof.Machine

@[simp] theorem crcFold_nil (c : Word) : crcFold c [] = c := rfl
@[simp] theorem crcFold_cons (c : Word) (b : Byte) (s : List Byte) :
    crcFold c (b :: s) = crcFold (crcByte c b) s := rfl

/-- One more byte at the end (R182). -/
theorem crcFold_snoc (c : Word) (s : List Byte) (b : Byte) :
    crcFold c (s ++ [b]) = crcByte (crcFold c s) b := by
  induction s generalizing c with
  | nil => rfl
  | cons x s ih => exact ih (crcByte c x)

/-- One shift is linear over XOR (R184: "by linearity of the update over GF(2)"). -/
theorem crcBit_xor (x y : Word) : crcBit (x ^^^ y) = crcBit x ^^^ crcBit y := by
  simp only [crcBit, BitVec.getLsbD_xor, BitVec.ushiftRight_xor_distrib]
  generalize x >>> 1 = p, y >>> 1 = q, (0xEDB88320#32 : Word) = r
  cases x.getLsbD 0 <;> cases y.getLsbD 0
  · rfl
  · exact BitVec.xor_assoc p q r
  · show p ^^^ q ^^^ r = p ^^^ r ^^^ q
    rw [BitVec.xor_assoc, BitVec.xor_comm q r, ← BitVec.xor_assoc]
  · show p ^^^ q = p ^^^ r ^^^ (q ^^^ r)
    rw [BitVec.xor_assoc, BitVec.xor_comm q r, ← BitVec.xor_assoc r r q, BitVec.xor_self, BitVec.zero_xor]

theorem crcBits8_xor (x y : Word) : crcBits8 (x ^^^ y) = crcBits8 x ^^^ crcBits8 y := by
  simp only [crcBits8, crcBit_xor]

/-- One shift of a word whose low bit is clear. -/
theorem crcBit_of_even (x : Word) (h : x.getLsbD 0 = false) : crcBit x = x >>> 1 := by
  simp only [crcBit, h, if_false, Bool.false_eq_true]

end Sys2Proof.Machine
end

