-- ==== Sys2Proof/Laws/State.lean ====
section
/-! SUPPORT. One lemma for each field of the state under each shared operation, true by unfolding, so that no proof
unfolds a record update. -/

namespace Sys2Proof.Machine

@[simp] theorem complete_regs (c : ErrCode) (s : State) : (complete c s).regs = s.regs := rfl
@[simp] theorem complete_status (c : ErrCode) (s : State) :
    (complete c s).status = { s.status with err := c, done := true } := rfl
@[simp] theorem complete_eng (c : ErrCode) (s : State) : (complete c s).eng = { s.eng with st := .idle } := rfl
@[simp] theorem complete_buf (c : ErrCode) (s : State) : (complete c s).buf = s.buf := rfl
@[simp] theorem complete_bufBytes (c : ErrCode) (s : State) : (complete c s).bufBytes = s.bufBytes := rfl
@[simp] theorem complete_rdata (c : ErrCode) (s : State) : (complete c s).rdata = s.rdata := rfl
@[simp] theorem complete_schedule (c : ErrCode) (s : State) : (complete c s).schedule = s.schedule := rfl
@[simp] theorem complete_epoch (c : ErrCode) (s : State) : (complete c s).epoch = s.epoch := rfl
@[simp] theorem complete_draws (c : ErrCode) (s : State) : (complete c s).draws = s.draws := rfl

@[simp] theorem accept_regs (w : Word) (s : State) : (accept w s).regs = s.regs := rfl
@[simp] theorem accept_status (w : Word) (s : State) :
    (accept w s).status = { s.status with done := false, err := .noErr } := rfl
@[simp] theorem accept_eng (w : Word) (s : State) :
    (accept w s).eng = { s.eng with st := firstState w, op := w, a := s.regs.addr, n := if w = 0x3#32 then s.regs.len else s.regs.count } := rfl
@[simp] theorem accept_buf (w : Word) (s : State) : (accept w s).buf = s.buf := rfl
@[simp] theorem accept_bufBytes (w : Word) (s : State) : (accept w s).bufBytes = s.bufBytes := rfl
@[simp] theorem accept_rdata (w : Word) (s : State) : (accept w s).rdata = s.rdata := rfl
@[simp] theorem accept_schedule (w : Word) (s : State) : (accept w s).schedule = s.schedule := rfl
@[simp] theorem accept_epoch (w : Word) (s : State) : (accept w s).epoch = s.epoch := rfl
@[simp] theorem accept_draws (w : Word) (s : State) : (accept w s).draws = s.draws := rfl

@[simp] theorem statusW1c_regs (v : Word) (s : State) : (statusW1c v s).regs = s.regs := rfl
@[simp] theorem statusW1c_status (v : Word) (s : State) :
    (statusW1c v s).status = { s.status with cmdOvr := s.status.cmdOvr && !v.getLsbD 8, busErr := s.status.busErr && !v.getLsbD 9 } := rfl
@[simp] theorem statusW1c_eng (v : Word) (s : State) : (statusW1c v s).eng = s.eng := rfl
@[simp] theorem statusW1c_buf (v : Word) (s : State) : (statusW1c v s).buf = s.buf := rfl
@[simp] theorem statusW1c_bufBytes (v : Word) (s : State) : (statusW1c v s).bufBytes = s.bufBytes := rfl
@[simp] theorem statusW1c_rdata (v : Word) (s : State) : (statusW1c v s).rdata = s.rdata := rfl
@[simp] theorem statusW1c_schedule (v : Word) (s : State) : (statusW1c v s).schedule = s.schedule := rfl
@[simp] theorem statusW1c_epoch (v : Word) (s : State) : (statusW1c v s).epoch = s.epoch := rfl
@[simp] theorem statusW1c_draws (v : Word) (s : State) : (statusW1c v s).draws = s.draws := rfl

@[simp] theorem answer_regs (v : Word) (s : State) : (answer v s).regs = s.regs := rfl
@[simp] theorem answer_status (v : Word) (s : State) : (answer v s).status = s.status := rfl
@[simp] theorem answer_eng (v : Word) (s : State) : (answer v s).eng = s.eng := rfl
@[simp] theorem answer_buf (v : Word) (s : State) : (answer v s).buf = s.buf := rfl
@[simp] theorem answer_bufBytes (v : Word) (s : State) : (answer v s).bufBytes = s.bufBytes := rfl
@[simp] theorem answer_rdata (v : Word) (s : State) : (answer v s).rdata = some v := rfl
@[simp] theorem answer_schedule (v : Word) (s : State) : (answer v s).schedule = s.schedule := rfl
@[simp] theorem answer_epoch (v : Word) (s : State) : (answer v s).epoch = s.epoch := rfl
@[simp] theorem answer_draws (v : Word) (s : State) : (answer v s).draws = s.draws := rfl

@[simp] theorem answerFree_regs (s : State) : (answerFree s).regs = s.regs := rfl
@[simp] theorem answerFree_status (s : State) : (answerFree s).status = s.status := rfl
@[simp] theorem answerFree_eng (s : State) : (answerFree s).eng = s.eng := rfl
@[simp] theorem answerFree_buf (s : State) : (answerFree s).buf = s.buf := rfl
@[simp] theorem answerFree_bufBytes (s : State) : (answerFree s).bufBytes = s.bufBytes := rfl
@[simp] theorem answerFree_rdata (s : State) : (answerFree s).rdata = some (Config.busyRead s.draws) := rfl
@[simp] theorem answerFree_schedule (s : State) : (answerFree s).schedule = s.schedule := rfl
@[simp] theorem answerFree_epoch (s : State) : (answerFree s).epoch = s.epoch := rfl
@[simp] theorem answerFree_draws (s : State) : (answerFree s).draws = s.draws + 1 := rfl

@[simp] theorem refuse_regs (r : Bool) (s : State) : (refuse r s).regs = s.regs := rfl
@[simp] theorem refuse_status (r : Bool) (s : State) : (refuse r s).status = { s.status with busErr := true } := rfl
@[simp] theorem refuse_eng (r : Bool) (s : State) : (refuse r s).eng = s.eng := rfl
@[simp] theorem refuse_buf (r : Bool) (s : State) : (refuse r s).buf = s.buf := rfl
@[simp] theorem refuse_bufBytes (r : Bool) (s : State) : (refuse r s).bufBytes = s.bufBytes := rfl
@[simp] theorem refuse_rdata (r : Bool) (s : State) :
    (refuse r s).rdata = if r then some 0x00000000#32 else s.rdata := rfl
@[simp] theorem refuse_schedule (r : Bool) (s : State) : (refuse r s).schedule = s.schedule := rfl
@[simp] theorem refuse_epoch (r : Bool) (s : State) : (refuse r s).epoch = s.epoch := rfl
@[simp] theorem refuse_draws (r : Bool) (s : State) : (refuse r s).draws = s.draws := rfl

@[simp] theorem memWrite8_regs (a : Nat) (b : Byte) (s : State) : (memWrite8 a b s).regs = s.regs := rfl
@[simp] theorem memWrite8_status (a : Nat) (b : Byte) (s : State) : (memWrite8 a b s).status = s.status := rfl
@[simp] theorem memWrite8_eng (a : Nat) (b : Byte) (s : State) : (memWrite8 a b s).eng = s.eng := rfl
@[simp] theorem memWrite8_buf (a : Nat) (b : Byte) (s : State) : (memWrite8 a b s).buf = s.buf.put a b := rfl
@[simp] theorem memWrite8_bufBytes (a : Nat) (b : Byte) (s : State) : (memWrite8 a b s).bufBytes = s.bufBytes := rfl
@[simp] theorem memWrite8_rdata (a : Nat) (b : Byte) (s : State) : (memWrite8 a b s).rdata = s.rdata := rfl
@[simp] theorem memWrite8_schedule (a : Nat) (b : Byte) (s : State) : (memWrite8 a b s).schedule = s.schedule := rfl
@[simp] theorem memWrite8_epoch (a : Nat) (b : Byte) (s : State) : (memWrite8 a b s).epoch = s.epoch := rfl
@[simp] theorem memWrite8_draws (a : Nat) (b : Byte) (s : State) : (memWrite8 a b s).draws = s.draws := rfl

@[simp] theorem memWriteBytes_regs (a : Nat) (bs : List Byte) (s : State) :
    (memWriteBytes a bs s).regs = s.regs := rfl
@[simp] theorem memWriteBytes_status (a : Nat) (bs : List Byte) (s : State) :
    (memWriteBytes a bs s).status = s.status := rfl
@[simp] theorem memWriteBytes_eng (a : Nat) (bs : List Byte) (s : State) : (memWriteBytes a bs s).eng = s.eng := rfl
@[simp] theorem memWriteBytes_buf (a : Nat) (bs : List Byte) (s : State) :
    (memWriteBytes a bs s).buf = s.buf.putBytes a bs := rfl
@[simp] theorem memWriteBytes_bufBytes (a : Nat) (bs : List Byte) (s : State) :
    (memWriteBytes a bs s).bufBytes = s.bufBytes := rfl
@[simp] theorem memWriteBytes_rdata (a : Nat) (bs : List Byte) (s : State) :
    (memWriteBytes a bs s).rdata = s.rdata := rfl
@[simp] theorem memWriteBytes_schedule (a : Nat) (bs : List Byte) (s : State) :
    (memWriteBytes a bs s).schedule = s.schedule := rfl
@[simp] theorem memWriteBytes_epoch (a : Nat) (bs : List Byte) (s : State) :
    (memWriteBytes a bs s).epoch = s.epoch := rfl
@[simp] theorem memWriteBytes_draws (a : Nat) (bs : List Byte) (s : State) :
    (memWriteBytes a bs s).draws = s.draws := rfl

@[simp] theorem memWrite32_regs (a : Nat) (v : Word) (s : State) : (memWrite32 a v s).regs = s.regs := rfl
@[simp] theorem memWrite32_status (a : Nat) (v : Word) (s : State) : (memWrite32 a v s).status = s.status := rfl
@[simp] theorem memWrite32_eng (a : Nat) (v : Word) (s : State) : (memWrite32 a v s).eng = s.eng := rfl
@[simp] theorem memWrite32_buf (a : Nat) (v : Word) (s : State) :
    (memWrite32 a v s).buf = s.buf.putBytes a (bytesBE32 v) := rfl
@[simp] theorem memWrite32_bufBytes (a : Nat) (v : Word) (s : State) : (memWrite32 a v s).bufBytes = s.bufBytes := rfl
@[simp] theorem memWrite32_rdata (a : Nat) (v : Word) (s : State) : (memWrite32 a v s).rdata = s.rdata := rfl
@[simp] theorem memWrite32_schedule (a : Nat) (v : Word) (s : State) : (memWrite32 a v s).schedule = s.schedule := rfl
@[simp] theorem memWrite32_epoch (a : Nat) (v : Word) (s : State) : (memWrite32 a v s).epoch = s.epoch := rfl
@[simp] theorem memWrite32_draws (a : Nat) (v : Word) (s : State) : (memWrite32 a v s).draws = s.draws := rfl

@[simp] theorem failRecord_regs (c : ErrCode) (s : State) :
    (failRecord c s).regs = { s.regs with consumed := 0x00000000#32 } := rfl
@[simp] theorem failRecord_status (c : ErrCode) (s : State) :
    (failRecord c s).status = { s.status with err := c, done := true } := rfl
@[simp] theorem failRecord_eng (c : ErrCode) (s : State) : (failRecord c s).eng = { s.eng with st := .idle } := rfl
@[simp] theorem failRecord_buf (c : ErrCode) (s : State) : (failRecord c s).buf = s.buf := rfl
@[simp] theorem failRecord_bufBytes (c : ErrCode) (s : State) : (failRecord c s).bufBytes = s.bufBytes := rfl
@[simp] theorem failRecord_rdata (c : ErrCode) (s : State) : (failRecord c s).rdata = s.rdata := rfl
@[simp] theorem failRecord_schedule (c : ErrCode) (s : State) : (failRecord c s).schedule = s.schedule := rfl
@[simp] theorem failRecord_epoch (c : ErrCode) (s : State) : (failRecord c s).epoch = s.epoch := rfl
@[simp] theorem failRecord_draws (c : ErrCode) (s : State) : (failRecord c s).draws = s.draws := rfl

@[simp] theorem badCommand_regs (s : State) : (badCommand s).regs = s.regs := rfl
@[simp] theorem badCommand_status (s : State) :
    (badCommand s).status = { s.status with err := .badCmd, done := true } := rfl
@[simp] theorem badCommand_eng (s : State) : (badCommand s).eng = { s.eng with st := .idle } := rfl
@[simp] theorem badCommand_buf (s : State) : (badCommand s).buf = s.buf := rfl
@[simp] theorem badCommand_bufBytes (s : State) : (badCommand s).bufBytes = s.bufBytes := rfl
@[simp] theorem badCommand_rdata (s : State) : (badCommand s).rdata = s.rdata := rfl
@[simp] theorem badCommand_schedule (s : State) : (badCommand s).schedule = s.schedule := rfl
@[simp] theorem badCommand_epoch (s : State) : (badCommand s).epoch = s.epoch := rfl
@[simp] theorem badCommand_draws (s : State) : (badCommand s).draws = s.draws := rfl

@[simp] theorem writeHeader_regs (s : State) : (writeHeader s).regs = s.regs := rfl
@[simp] theorem writeHeader_status (s : State) : (writeHeader s).status = s.status := rfl
@[simp] theorem writeHeader_eng (s : State) : (writeHeader s).eng = s.eng := rfl
@[simp] theorem writeHeader_buf (s : State) :
    (writeHeader s).buf = (s.buf.putBytes (engA s) (bytesBE32 s.eng.n)).putBytes (engA s + 4) (tagBytes s.regs.tag) := rfl
@[simp] theorem writeHeader_bufBytes (s : State) : (writeHeader s).bufBytes = s.bufBytes := rfl
@[simp] theorem writeHeader_rdata (s : State) : (writeHeader s).rdata = s.rdata := rfl
@[simp] theorem writeHeader_schedule (s : State) : (writeHeader s).schedule = s.schedule := rfl
@[simp] theorem writeHeader_epoch (s : State) : (writeHeader s).epoch = s.epoch := rfl
@[simp] theorem writeHeader_draws (s : State) : (writeHeader s).draws = s.draws := rfl

@[simp] theorem resetEvent_regs (s : State) : (resetEvent s).regs = Regs.reset := rfl
@[simp] theorem resetEvent_status (s : State) : (resetEvent s).status = Status.reset := rfl
@[simp] theorem resetEvent_eng (s : State) : (resetEvent s).eng = Engine.reset (s.epoch + 1) := rfl
@[simp] theorem resetEvent_buf (s : State) : (resetEvent s).buf = [] := rfl
@[simp] theorem resetEvent_bufBytes (s : State) : (resetEvent s).bufBytes = s.bufBytes := rfl
@[simp] theorem resetEvent_rdata (s : State) : (resetEvent s).rdata = s.rdata := rfl
@[simp] theorem resetEvent_schedule (s : State) : (resetEvent s).schedule = s.schedule := rfl
@[simp] theorem resetEvent_epoch (s : State) : (resetEvent s).epoch = s.epoch + 1 := rfl
@[simp] theorem resetEvent_draws (s : State) : (resetEvent s).draws = s.draws := rfl

end Sys2Proof.Machine
end

