-- ==== Sys2Proof/Laws/Memory.lean ====
section
/-! SUPPORT. The laws of the buffer: a byte written reads back, every other byte is kept, and every operation keeps
the canonical form. -/

namespace Sys2Proof.Machine

@[simp] theorem Memory.get_put (m : Memory) (a x : Nat) (b : Byte) :
    (m.put a b).get x = if x = a then some b else m.get x := by
  induction m with
  | nil => simp [Memory.put, Memory.get, eq_comm]
  | cons c m ih =>
    obtain ⟨k, v⟩ := c
    simp only [Memory.put]
    split
    · simp only [Memory.get]; grind
    · split
      · simp only [Memory.get]; grind
      · simp only [Memory.get, ih]; grind

/-- The canonical form of a list with a head: the tail is canonical and lies above the head. -/
theorem Memory.wf_cons (c : Host.Cell) (m : Memory) :
    Memory.wf (c :: m) = true ↔ Memory.wf m = true ∧ ∀ d ∈ m.head?, c.1 < d.1 := by
  cases m with
  | nil => simp [Memory.wf]
  | cons d m => obtain ⟨a, x⟩ := c; obtain ⟨b, y⟩ := d; simp [Memory.wf, and_comm]

theorem Memory.put_head (m : Memory) (a : Nat) (b : Byte) (d : Host.Cell) (h : d ∈ (m.put a b).head?) :
    d.1 = a ∨ d ∈ m.head? := by
  cases m with
  | nil => left; simp [Memory.put] at h; rw [← h]
  | cons c m =>
    obtain ⟨k, v⟩ := c
    simp only [Memory.put] at h
    split at h
    · left; simp at h; rw [← h]
    · split at h
      · left; simp at h; rw [← h]
      · right; simpa using h

/-- A write keeps the canonical form. -/
theorem Memory.wf_put (m : Memory) (a : Nat) (b : Byte) (h : m.wf = true) : (m.put a b).wf = true := by
  induction m with
  | nil => rfl
  | cons c m ih =>
    obtain ⟨k, v⟩ := c
    have hc := (Memory.wf_cons _ _).1 h
    simp only [Memory.put]
    split
    · rename_i hlt
      exact (Memory.wf_cons _ _).2 ⟨h, by simp [hlt]⟩
    · split
      · rename_i _ he
        subst he
        exact (Memory.wf_cons _ _).2 ⟨hc.1, hc.2⟩
      · rename_i h1 h2
        refine (Memory.wf_cons _ _).2 ⟨ih hc.1, ?_⟩
        intro d hd
        rcases Memory.put_head m a b d hd with he | hm
        · simp only; omega
        · exact hc.2 d hm

/-- A write inside a bound keeps every offset inside it. -/
theorem Memory.below_put (m : Memory) (a n : Nat) (b : Byte) (h : m.below n) (ha : a < n) :
    (m.put a b).below n := by
  induction m with
  | nil => intro c hc; simp [Memory.put] at hc; subst hc; exact ha
  | cons d m ih =>
    obtain ⟨k, v⟩ := d
    have hk : k < n := h (k, v) (by simp)
    have hm : Memory.below m n := fun c hc => h c (by simp [hc])
    intro c hc
    simp only [Memory.put] at hc
    split at hc
    · simp at hc; rcases hc with rfl | rfl | hc
      · exact ha
      · exact hk
      · exact hm c hc
    · split at hc
      · simp at hc; rcases hc with rfl | hc
        · exact ha
        · exact hm c hc
      · simp at hc; rcases hc with rfl | hc
        · exact hk
        · exact ih hm c hc

/-- An offset at or below every listed one but the head's is not listed. -/
theorem Memory.get_of_lt_head (m : Memory) (a : Nat) (h : m.wf = true) (hd : ∀ d ∈ m.head?, a < d.1) :
    m.get a = none := by
  induction m with
  | nil => rfl
  | cons c m ih =>
    obtain ⟨k, v⟩ := c
    have hc := (Memory.wf_cons _ _).1 h
    have hk : a < k := hd (k, v) (by simp)
    rw [Memory.get, if_neg (by omega)]
    exact ih hc.1 (fun d hm => Nat.lt_trans hk (hc.2 d hm))

/-- Equal buffers are equal data: canonical lists that hold the same bytes are the same list (log 5). -/
theorem Memory.ext (m m' : Memory) (h : m.wf = true) (h' : m'.wf = true) (hg : ∀ a, m.get a = m'.get a) :
    m = m' := by
  induction m generalizing m' with
  | nil =>
    cases m' with
    | nil => rfl
    | cons c m' => obtain ⟨k, v⟩ := c; have := hg k; simp [Memory.get] at this
  | cons c m ih =>
    obtain ⟨k, v⟩ := c
    have hc := (Memory.wf_cons _ _).1 h
    cases m' with
    | nil => have := hg k; simp [Memory.get] at this
    | cons d m' =>
      obtain ⟨k', v'⟩ := d
      have hd := (Memory.wf_cons _ _).1 h'
      have hk : k = k' := by
        rcases Nat.lt_trichotomy k k' with hlt | he | hlt
        · have := hg k
          rw [Memory.get_of_lt_head ((k', v') :: m') k h' (by simpa using hlt)] at this
          simp [Memory.get] at this
        · exact he
        · have := hg k'
          rw [Memory.get_of_lt_head ((k, v) :: m) k' h (by simpa using hlt)] at this
          simp [Memory.get] at this
      subst hk
      have hv : v = v' := by have := hg k; simpa [Memory.get] using this
      subst hv
      congr 1
      refine ih m' hc.1 hd.1 (fun a => ?_)
      by_cases ha : k = a
      · subst ha
        rw [Memory.get_of_lt_head m k hc.1 hc.2, Memory.get_of_lt_head m' k hd.1 hd.2]
      · have := hg a
        simpa [Memory.get, ha] using this

/-- What is read depends only on the written bytes and the reset's draw. -/
theorem memRead8_congr (s t : State) (a : Nat) (hb : t.buf = s.buf) (he : t.epoch = s.epoch) :
    memRead8 t a = memRead8 s a := by simp [memRead8, hb, he]

@[simp] theorem memRead8_memWrite8 (s : State) (a x : Nat) (b : Byte) :
    memRead8 (memWrite8 a b s) x = if x = a then b else memRead8 s x := by
  simp only [memRead8, memWrite8_buf, memWrite8_epoch, Memory.get_put]
  by_cases h : x = a <;> simp [h]

@[simp] theorem memWriteBytes_nil (a : Nat) (s : State) : memWriteBytes a [] s = s := rfl

theorem memWriteBytes_cons (a : Nat) (b : Byte) (bs : List Byte) (s : State) :
    memWriteBytes a (b :: bs) s = memWriteBytes (a + 1) bs (memWrite8 a b s) := rfl

/-- Bytes written in turn read back in turn, and every byte outside them is kept (R14). -/
theorem memRead8_memWriteBytes (bs : List Byte) (a x : Nat) (s : State) :
    memRead8 (memWriteBytes a bs s) x =
      if a ≤ x ∧ x < a + bs.length then bs.getD (x - a) 0#8 else memRead8 s x := by
  induction bs generalizing a s with
  | nil => rw [if_neg (by simp)]; rfl
  | cons b bs ih =>
    rw [memWriteBytes_cons, ih, memRead8_memWrite8]
    by_cases h0 : x = a
    · subst h0
      simp
    · by_cases h1 : a + 1 ≤ x ∧ x < a + 1 + bs.length
      · have h2 : a ≤ x ∧ x < a + (b :: bs).length := by simp; omega
        rw [if_pos h1, if_pos h2]
        have e : x - a = (x - (a + 1)) + 1 := by omega
        rw [e, List.getD_cons_succ]
      · have h2 : ¬ (a ≤ x ∧ x < a + (b :: bs).length) := by simp; omega
        rw [if_neg h1, if_neg h2, if_neg h0]

@[simp] theorem bytesBE32_length (v : Word) : (bytesBE32 v).length = 4 := rfl
@[simp] theorem tagBytes_length (v : Word) : (tagBytes v).length = 4 := rfl

/-- A word write stores its four bytes and nothing else (R150). -/
theorem memRead8_memWrite32 (s : State) (a x : Nat) (v : Word) :
    memRead8 (memWrite32 a v s) x =
      if x = a then lane v 0 else if x = a + 1 then lane v 1 else if x = a + 2 then lane v 2
      else if x = a + 3 then lane v 3 else memRead8 s x := by
  simp only [memWrite32, bytesBE32, memWriteBytes_cons, memWriteBytes_nil, memRead8_memWrite8]
  grind

/-- A word written reads back (R83). -/
@[simp] theorem memRead32_memWrite32 (s : State) (a : Nat) (v : Word) :
    memRead32 (memWrite32 a v s) a = v := by
  simp [memRead32, memRead8_memWrite32]

@[simp] theorem memBytes_length (s : State) (a n : Nat) : (memBytes s a n).length = n := by
  induction n generalizing a with
  | zero => rfl
  | succ n ih => simp [memBytes, ih]

/-- `MemBytes` depends only on the bytes in its range. -/
theorem memBytes_congr (s t : State) (a n : Nat) (h : ∀ x, a ≤ x → x < a + n → memRead8 s x = memRead8 t x) :
    memBytes s a n = memBytes t a n := by
  induction n generalizing a with
  | zero => rfl
  | succ n ih =>
    simp only [memBytes]
    rw [h a (by omega) (by omega), ih (a + 1) (fun x h1 h2 => h x (by omega) (by omega))]

theorem memBytes_append (s : State) (a m n : Nat) :
    memBytes s a (m + n) = memBytes s a m ++ memBytes s (a + m) n := by
  induction m generalizing a with
  | zero => simp [memBytes]
  | succ m ih =>
    have e : m + 1 + n = (m + n) + 1 := by omega
    rw [e]
    simp only [memBytes, ih, List.cons_append]
    have e2 : a + 1 + m = a + (m + 1) := by omega
    rw [e2]

/-- One more byte at the end of the sequence. -/
theorem memBytes_succ (s : State) (a n : Nat) :
    memBytes s a (n + 1) = memBytes s a n ++ [memRead8 s (a + n)] := by
  rw [memBytes_append]; rfl

/-- The buffer operations keep the canonical form. -/
theorem memWrite8_wf (s : State) (a : Nat) (b : Byte) (h : s.buf.wf = true) :
    (memWrite8 a b s).buf.wf = true := Memory.wf_put _ _ _ h

theorem memWriteBytes_wf (bs : List Byte) (s : State) (a : Nat) (h : s.buf.wf = true) :
    (memWriteBytes a bs s).buf.wf = true := by
  induction bs generalizing a s with
  | nil => exact h
  | cons b bs ih => exact ih (memWrite8 a b s) (a + 1) (memWrite8_wf s a b h)

theorem memWrite32_wf (s : State) (a : Nat) (v : Word) (h : s.buf.wf = true) :
    (memWrite32 a v s).buf.wf = true := memWriteBytes_wf _ _ _ h

/-- They write only inside a bound that their range keeps. -/
theorem memWrite8_below (s : State) (a n : Nat) (b : Byte) (h : s.buf.below n) (ha : a < n) :
    (memWrite8 a b s).buf.below n := Memory.below_put _ _ _ _ h ha

theorem memWriteBytes_below (bs : List Byte) (s : State) (a n : Nat) (h : s.buf.below n)
    (ha : a + bs.length ≤ n) : (memWriteBytes a bs s).buf.below n := by
  induction bs generalizing a s with
  | nil => exact h
  | cons b bs ih =>
    simp only [List.length_cons] at ha
    exact ih (memWrite8 a b s) (a + 1) (memWrite8_below s a n b h (by omega)) (by omega)

theorem memWrite32_below (s : State) (a n : Nat) (v : Word) (h : s.buf.below n) (ha : a + 4 ≤ n) :
    (memWrite32 a v s).buf.below n := memWriteBytes_below _ _ _ _ h (by simpa using ha)

theorem reset_buf_wf : State.reset.buf.wf = true := rfl

end Sys2Proof.Machine
end

