-- ==== Sys2Proof/Laws/Framing.lean ====
section
/-! SUPPORT. What ENCODE's writes leave to be read, byte by byte, and what DECODE's field reads depend on. -/

namespace Sys2Proof.Machine

theorem bytesBE32_getD (v : Word) (k : Nat) (h : k < 4) : (bytesBE32 v).getD k 0#8 = lane v k := by
  obtain rfl | rfl | rfl | rfl : k = 0 ∨ k = 1 ∨ k = 2 ∨ k = 3 := by omega
  all_goals rfl

theorem tagBytes_getD (v : Word) (k : Nat) (h : k < 4) : (tagBytes v).getD k 0#8 = lane v k :=
  bytesBE32_getD v k h

/-- Every byte after a four-byte write of lanes. -/
theorem memRead8_memWriteBytes_bytesBE32 (v : Word) (a x : Nat) (s : State) :
    memRead8 (memWriteBytes a (bytesBE32 v) s) x =
      if a ≤ x ∧ x < a + 4 then lane v (x - a) else memRead8 s x := by
  rw [memRead8_memWriteBytes]
  by_cases h : a ≤ x ∧ x < a + 4
  · rw [if_pos h, if_pos (show a ≤ x ∧ x < a + (bytesBE32 v).length from h), bytesBE32_getD _ _ (by omega)]
  · rw [if_neg h, if_neg (show ¬ (a ≤ x ∧ x < a + (bytesBE32 v).length) from h)]

/-- Every byte after ENCODE's header is written (R201). -/
theorem memRead8_writeHeader (s : State) (x : Nat) :
    memRead8 (writeHeader s) x =
      if engA s + 4 ≤ x ∧ x < engA s + 8 then lane s.regs.tag (x - (engA s + 4))
      else if engA s ≤ x ∧ x < engA s + 4 then lane s.eng.n (x - engA s)
      else memRead8 s x := by
  show memRead8 (memWriteBytes (engA s + 4) (bytesBE32 s.regs.tag)
    (memWriteBytes (engA s) (bytesBE32 s.eng.n) s)) x = _
  rw [memRead8_memWriteBytes_bytesBE32, memRead8_memWriteBytes_bytesBE32]

/-- The header is written before the payload, which it does not overlap (R205). -/
theorem memRead8_writeHeader_of_ge (s : State) (x : Nat) (h : engA s + 8 ≤ x) :
    memRead8 (writeHeader s) x = memRead8 s x := by
  rw [memRead8_writeHeader, if_neg (by omega), if_neg (by omega)]

/-- Every byte after ENCODE's header and a checksum are written (R201, R202). -/
theorem memRead8_record (s : State) (c : Word) (x : Nat) :
    memRead8 (memWrite32 (engA s + 8 + engN s) c (writeHeader s)) x =
      if engA s + 8 + engN s ≤ x ∧ x < engA s + 8 + engN s + 4 then lane c (x - (engA s + 8 + engN s))
      else if engA s + 4 ≤ x ∧ x < engA s + 8 then lane s.regs.tag (x - (engA s + 4))
      else if engA s ≤ x ∧ x < engA s + 4 then lane s.eng.n (x - engA s)
      else memRead8 s x := by
  rw [memWrite32, memRead8_memWriteBytes_bytesBE32, memRead8_writeHeader]

/-- The checksum is computed over the payload the host left (R201). -/
theorem encodeCrc_writeHeader (s : State) :
    encodeCrc (writeHeader s) = crc32 (tagBytes s.regs.tag ++ memBytes s (engA s + 8) (engN s)) := by
  show crc32 (tagBytes s.regs.tag ++ memBytes (writeHeader s) (engA s + 8) (engN s)) = _
  rw [memBytes_congr _ s _ _ (fun x h _ => memRead8_writeHeader_of_ge s x h)]

/-- Four bytes that are a word's lanes read as that word. -/
theorem memRead32_of_lanes (s : State) (a : Nat) (v : Word)
    (h : ∀ k, k < 4 → memRead8 s (a + k) = lane v k) : memRead32 s a = v := by
  have h0 : memRead8 s a = lane v 0 := h 0 (by decide)
  rw [memRead32, h0, h 1 (by decide), h 2 (by decide), h 3 (by decide)]
  exact be32_lanes v

theorem memBytes_of_lanes (s : State) (a : Nat) (v : Word)
    (h : ∀ k, k < 4 → memRead8 s (a + k) = lane v k) : memBytes s a 4 = tagBytes v := by
  have h0 : memRead8 s a = lane v 0 := h 0 (by decide)
  show [memRead8 s a, memRead8 s (a + 1), memRead8 s (a + 2), memRead8 s (a + 3)] = _
  rw [h0, h 1 (by decide), h 2 (by decide), h 3 (by decide)]
  rfl

theorem memRead32_congr (s t : State) (a : Nat) (h : ∀ x, a ≤ x → x < a + 4 → memRead8 s x = memRead8 t x) :
    memRead32 s a = memRead32 t a := by
  rw [memRead32, memRead32, h a (by omega) (by omega), h (a + 1) (by omega) (by omega),
    h (a + 2) (by omega) (by omega), h (a + 3) (by omega) (by omega)]

/-- The tag field as the TAG register holds it is the big-endian word at the field (R43). -/
theorem recordTag_eq (s : State) : recordTag s = memRead32 s (engA s + 4) := rfl

end Sys2Proof.Machine
end

