-- ==== Sys2Proof/Laws/Operands.lean ====
section
/-! SUPPORT. The register map (R32, R51, R81) and the bits of the flag words (R34, R166), said once. -/

namespace Sys2Proof.Machine

/-- R7's bounds, as a conjunction. -/
theorem legalBufBytes_iff (n : Nat) :
    legalBufBytes n = true ↔ n % 4 = 0 ∧ 16 ≤ n ∧ n ≤ 2147483648 := decide_eq_true_iff

/-- Every offset from 0x34 up is reserved (R51, R81). -/
theorem regAt_of_ge (off : Word) (h : 0x34 ≤ off.toNat) : regAt off = .reserved := by
  unfold regAt
  split <;> first | omega | rfl

theorem regAt_eq_cmd (off : Word) : regAt off = .cmd ↔ off = 0x00#32 := by
  constructor
  · intro h
    unfold regAt at h
    split at h <;> first | exact BitVec.eq_of_toNat_eq ‹_› | cases h
  · rintro rfl; rfl

theorem regAt_eq_status (off : Word) : regAt off = .status ↔ off = 0x04#32 := by
  constructor
  · intro h
    unfold regAt at h
    split at h <;> first | exact BitVec.eq_of_toNat_eq ‹_› | cases h
  · rintro rfl; rfl

/-- Neither STATUS, nor CMD, nor a reserved offset is in a write set (R56). -/
theorem status_not_mem_writeSet (op : Word) : RegName.status ∉ writeSet op := by
  unfold writeSet
  repeat' split
  all_goals decide

theorem reserved_not_mem_writeSet (op : Word) : RegName.reserved ∉ writeSet op := by
  unfold writeSet
  repeat' split
  all_goals decide

theorem flagAt_getLsbD (b : Bool) (k j : Nat) (hk : k < 32) : (flagAt b k).getLsbD j = (b && decide (j = k)) := by
  cases b
  · simp [flagAt]
  · by_cases h : j = k
    · subst h; simp [flagAt, hk]
    · simp [flagAt, h]; omega

/-- An ERR code has three bits (R37). -/
theorem code_getLsbD_of_ge (e : ErrCode) (j : Nat) (h : 3 ≤ j) : e.code.getLsbD j = false := by
  by_cases hj : j < 32
  · cases e <;> simp [ErrCode.code] <;> (revert j; decide)
  · exact BitVec.getLsbD_of_ge _ _ (by omega)

/-- Every bit of the STATUS word (R34). -/
theorem statusWord_getLsbD (s : State) (j : Nat) :
    (statusWord s).getLsbD j =
      ((decide (Busy s) && decide (j = 0)) || (s.status.done && decide (j = 1)) ||
        (decide (j < 32) && !decide (j < 4) && s.status.err.code.getLsbD (j - 4)) ||
        (s.status.cmdOvr && decide (j = 8)) || (s.status.busErr && decide (j = 9))) := by
  simp only [statusWord, BitVec.getLsbD_or, BitVec.getLsbD_shiftLeft]
  rw [flagAt_getLsbD _ _ _ (by decide), flagAt_getLsbD _ _ _ (by decide), flagAt_getLsbD _ _ _ (by decide),
    flagAt_getLsbD _ _ _ (by decide)]

end Sys2Proof.Machine
end

