-- ==== Sys2Proof/Laws/PerInstr.lean ====
section
/-! SUPPORT. Per-instruction facts: one lemma for each constructor of `Instr`. -/

namespace Sys2Proof.Laws.WordRoundTrip

/-- The encoder's words decode to the instruction, and the instruction is well formed (R113, R116). -/
def Statement (i : Instr) : Prop := decode (encode i) = .ok i ∧ i.wellFormed = true

theorem nop : Statement .nop := ⟨rfl, rfl⟩
theorem crcReset : Statement .crcReset := ⟨rfl, rfl⟩
theorem crcFeed : Statement .crcFeed := ⟨rfl, rfl⟩
theorem encodeRec : Statement .encodeRec := ⟨rfl, rfl⟩
theorem decodeRec : Statement .decodeRec := ⟨rfl, rfl⟩
theorem regRead32 (off : Word) : Statement (.regRead32 off) := ⟨rfl, rfl⟩
theorem regWrite32 (off wdata : Word) : Statement (.regWrite32 off wdata) := ⟨rfl, rfl⟩
theorem bufRead8 (off : Word) : Statement (.bufRead8 off) := ⟨rfl, rfl⟩
theorem bufWrite8 (off wdata : Word) : Statement (.bufWrite8 off wdata) := ⟨rfl, rfl⟩
theorem bufRead32 (off : Word) : Statement (.bufRead32 off) := ⟨rfl, rfl⟩
theorem bufWrite32 (off wdata : Word) : Statement (.bufWrite32 off wdata) := ⟨rfl, rfl⟩

end Sys2Proof.Laws.WordRoundTrip
end

