-- ==== Sys2Proof/Laws/Step.lean ====
section
/-! SUPPORT. What a transaction, a command and a step can do, said once: the lemmas that later proofs split on
instead of unfolding the step. -/

namespace Sys2Proof.Machine

/-- Everything a refusal by kind does: the W bit says whether 0 is returned (R115, R146). -/
theorem refuseKind_eq (k : BitVec 4) (s : State) :
    refuseKind k s = { s with
      status := { s.status with busErr := true }
      rdata := if k.getLsbD 0 then s.rdata else some 0x00000000#32 } := by
  have h : ∀ b : Bool, refuse (!b) s = { s with
      status := { s.status with busErr := true }
      rdata := if b then s.rdata else some 0x00000000#32 } := by
    intro b
    cases b <;> rfl
  exact h (k.getLsbD 0)

/-- Everything a CMD write can do (R144, R277). -/
theorem issue_cases (w : Word) (s : State) :
    (Busy s ∧ issue w s = { s with status := { s.status with cmdOvr := true } }) ∨
      (¬ Busy s ∧ issue w s = accept w s) := by
  by_cases h : Busy s
  · exact .inl ⟨h, if_pos h⟩
  · exact .inr ⟨h, if_neg h⟩

/-- Everything a register read can do (R140, R279). -/
theorem regRead_cases (r : RegName) (s : State) :
    (∃ v, regRead r s = answer v s) ∨ (Busy s ∧ regRead r s = answerFree s) := by
  by_cases h : Busy s ∧ r ∈ writeSet s.eng.op
  · exact .inr ⟨h.1, if_pos h⟩
  · exact .inl ⟨_, if_neg h⟩

/-- Everything a register write can do (R141). -/
theorem regWrite_cases (r : RegName) (v : Word) (s : State) :
    regWrite r v s = issue v s ∨ regWrite r v s = statusW1c v s ∨
      (Busy s ∧ regWrite r v s = refuse false s) ∨ (¬ Busy s ∧ regWrite r v s = storeReg r v s) := by
  by_cases h : Busy s <;> cases r <;> simp [regWrite, h]

/-- Everything a register store can do: a value in one of the five RW registers, or nothing (R32, R142). -/
theorem storeReg_cases (r : RegName) (v : Word) (s : State) :
    storeReg r v s = s ∨ storeReg r v s = { s with regs := { s.regs with addr := v } } ∨
      storeReg r v s = { s with regs := { s.regs with count := v } } ∨
      storeReg r v s = { s with regs := { s.regs with len := v } } ∨
      storeReg r v s = { s with regs := { s.regs with tag := v } } ∨
      storeReg r v s = { s with regs := { s.regs with crcAcc := v } } := by
  cases r <;> simp [storeReg]

/-- Everything a host transaction can do. -/
theorem runTxn_cases {x : Txn} {s t : State} (h : runTxn x s = .next t) :
    (∃ b, t = refuse b s) ∨ (∃ v, t = answer v s) ∨ (Busy s ∧ t = answerFree s) ∨ (∃ w, t = issue w s) ∨
      (∃ v, t = statusW1c v s) ∨ (¬ Busy s ∧ ∃ r v, t = storeReg r v s) ∨
      (¬ Busy s ∧ ∃ a bs, a + bs.length ≤ s.bufBytes ∧ t = memWriteBytes a bs s) := by
  simp only [runTxn, decodeTxn] at h
  split at h
  · rename_i i hi
    split at hi
    · cases hi
      simp only [exec, execRegRead32, Host.Outcome.next.injEq] at h
      subst h
      split
      · rcases regRead_cases (regAt x.off) s with ⟨v, hv⟩ | ⟨hb, hv⟩ <;> grind
      · exact .inl ⟨_, rfl⟩
    split at hi
    · cases hi
      simp only [exec, execRegWrite32, Host.Outcome.next.injEq] at h
      subst h
      split
      · rcases regWrite_cases (regAt x.off) x.wdata s with hv | hv | ⟨hb, hv⟩ | ⟨hb, hv⟩ <;> grind
      · exact .inl ⟨_, rfl⟩
    split at hi
    · cases hi
      simp only [exec, execBufRead8, Host.Outcome.next.injEq] at h
      subst h
      grind
    split at hi
    · cases hi
      simp only [exec, execBufWrite8, Host.Outcome.next.injEq] at h
      subst h
      split
      · exact .inl ⟨_, rfl⟩
      · rename_i h1
        split
        · exact .inl ⟨_, rfl⟩
        · rename_i h2
          exact .inr (.inr (.inr (.inr (.inr (.inr ⟨h2, x.off.toNat, [lowByte x.wdata], not_not.1 h1, rfl⟩)))))
    split at hi
    · cases hi
      simp only [exec, execBufRead32, Host.Outcome.next.injEq] at h
      subst h
      grind
    split at hi
    · cases hi
      simp only [exec, execBufWrite32, Host.Outcome.next.injEq] at h
      subst h
      split
      · exact .inl ⟨_, rfl⟩
      · rename_i h1
        split
        · exact .inl ⟨_, rfl⟩
        · rename_i h2
          exact .inr (.inr (.inr (.inr (.inr (.inr ⟨h2, x.off.toNat, bytesBE32 x.wdata, (not_not.1 h1).2, rfl⟩)))))
    · cases hi
  · simp only [Host.Outcome.next.injEq] at h
    exact .inl ⟨_, h.symm⟩

/-- Everything the merged run of a command can do: one of the five completions, or BAD_CMD; nothing when idle. -/
theorem runCommand_cases {s t : State} (h : runCommand s = .next t) :
    (¬ Busy s ∧ t = s) ∨ (Busy s ∧ (
      (s.eng.op = 0x0#32 ∧ t = complete .noErr s) ∨ (s.eng.op = 0x1#32 ∧ t = crcResetResult s) ∨
      (s.eng.op = 0x2#32 ∧ t = crcFeedResult s) ∨ (s.eng.op = 0x3#32 ∧ t = encodeResult s) ∨
      (s.eng.op = 0x4#32 ∧ t = decodeResult s) ∨
      ((∃ r, decodeCmd s.eng.op = .error r) ∧ t = badCommand s))) := by
  simp only [runCommand] at h
  split at h
  · rename_i hb
    refine .inr ⟨hb, ?_⟩
    cases hd : decodeCmd s.eng.op with
    | error r =>
      simp only [hd, Host.Outcome.next.injEq] at h
      exact .inr (.inr (.inr (.inr (.inr ⟨⟨r, rfl⟩, h.symm⟩))))
    | ok i =>
      simp only [hd] at h
      simp only [decodeCmd] at hd
      repeat' split at hd
      all_goals cases hd
      all_goals simp only [exec, execNop, execCrcReset, execCrcFeed, execEncodeRec, execDecodeRec,
        Host.Outcome.next.injEq] at h
      all_goals simp_all
  · rename_i hb
    simp only [Host.Outcome.next.injEq] at h
    exact .inl ⟨hb, h.symm⟩

/-- Everything a step can do: the next entry of the schedule, or an engine step when there is none (R91, R283). -/
theorem step_cases {s t : State} (h : step s = .next t) :
    (∃ x rest, s.schedule = .txn x :: rest ∧ runTxn x { s with schedule := rest } = .next t) ∨
      (∃ rest, s.schedule = .engineStep :: rest ∧ t = engineRow { s with schedule := rest }) ∨
      (∃ rest, s.schedule = .engineRun :: rest ∧ runCommand { s with schedule := rest } = .next t) ∨
      (∃ rest, s.schedule = .reset :: rest ∧ t = resetEvent { s with schedule := rest }) ∨
      (s.schedule = [] ∧ t = engineRow s) := by
  unfold step at h
  split at h <;> rename_i hs
  · exact .inl ⟨_, _, hs, h⟩
  · exact .inr (.inl ⟨_, hs, by cases h; rfl⟩)
  · exact .inr (.inr (.inl ⟨_, hs, h⟩))
  · exact .inr (.inr (.inr (.inl ⟨_, hs, by cases h; rfl⟩)))
  · exact .inr (.inr (.inr (.inr ⟨hs, by cases h; rfl⟩)))

end Sys2Proof.Machine
end

