-- ==== Sys2Proof/Tests/Slice0.lean ====
section
/-! SUPPORT. The model's own tests. Expected values are those of 95_test_vectors.md (V-...), of a rule's own example, or
worked out by hand from a rule. After them, one witness for each clause of each obligation with hypotheses. -/

namespace Sys2Proof.Tests

-- One theorem after another: each waiting thread asks for a stack of its own.
set_option Elab.async false
open Sys2Proof.Machine

/-! ## Helpers -/

/-- An engine in a state, holding a command word and its latched operands. -/
def engine (st : EngSt) (op a n : Word) : Engine :=
  { st := st, op := op, a := a, n := n, i := 0, acc := 0#32, len := 0#32, rx := 0#32 }

/-- The vectors' block: P_BUF_BYTES = 4096, registers as after reset. -/
def idleWith (buf : Memory) : State :=
  { regs := Regs.reset, status := Status.reset, eng := engine .idle 0#32 0#32 0#32, buf := buf, bufBytes := 4096
    rdata := none, schedule := [], epoch := 0, draws := 0 }

/-- A command accepted with the given ADDR, COUNT, LEN and TAG (R144). -/
def busyWith (op addr count len tag : Word) (buf : Memory) : State :=
  accept op { idleWith buf with
    regs := { Regs.reset with addr := addr, count := count, len := len, tag := tag } }

/-- Bytes at an offset, as the buffer lists them. -/
def bytesAt : Nat → List Nat → Memory
  | _, [] => []
  | a, b :: bs => (a, BitVec.ofNat 8 b) :: bytesAt (a + 1) bs

/-- The IEND record's bytes (V-ENC-1). -/
def iend12 : List Nat := [0x00, 0x00, 0x00, 0x00, 0x49, 0x45, 0x4E, 0x44, 0xAE, 0x42, 0x60, 0x82]

/-- "123456789". -/
def digits : List Nat := [0x31, 0x32, 0x33, 0x34, 0x35, 0x36, 0x37, 0x38, 0x39]

/-- "This is where your secret message will be!" (V-CRC-1). -/
def secret : List Nat :=
  [0x54, 0x68, 0x69, 0x73, 0x20, 0x69, 0x73, 0x20, 0x77, 0x68, 0x65, 0x72, 0x65, 0x20] ++
  [0x79, 0x6F, 0x75, 0x72, 0x20, 0x73, 0x65, 0x63, 0x72, 0x65, 0x74, 0x20, 0x6D, 0x65] ++
  [0x73, 0x73, 0x61, 0x67, 0x65, 0x20, 0x77, 0x69, 0x6C, 0x6C, 0x20, 0x62, 0x65, 0x21]

/-- The bytes of a list of numbers. -/
def bytesOf (l : List Nat) : List Byte := l.map (BitVec.ofNat 8)

/-- A view of the next state, or nothing after a fault or a refusal. -/
def after {α : Type} (f : State → α) : Host.Outcome State Fault Refusal → Option α
  | .next t => some (f t)
  | .fault _ => none
  | .refused _ => none

/-- STATUS with both sticky bits set. -/
def sticky : Status := { done := false, err := .noErr, cmdOvr := true, busErr := true }

/-! ## WellFormed: each check of P_BUF_BYTES refuses an ill-formed value (R7) -/

theorem test_buf_size_not_multiple_of_four : legalBufBytes 18 = false := by decide
theorem test_buf_size_too_small : legalBufBytes 12 = false := by decide
theorem test_buf_size_too_large : legalBufBytes 2147483652 = false := by decide
theorem test_buf_size_bounds : legalBufBytes 16 = true ∧ legalBufBytes 2147483648 = true := by decide
theorem test_every_instr_well_formed :
    Instr.wellFormed (.bufWrite32 0xFFFFFFFF#32 0xFFFFFFFF#32) = true ∧ Instr.wellFormed .nop = true := by decide

/-! ## Decode: R113's words and R116's kinds, bit by bit -/

theorem test_decode_crcFeed :
    decode (.cmd 0b00000000000000000000000000000010#32) = .ok .crcFeed := by decide
theorem test_decode_decodeRec :
    decode (.cmd 0b00000000000000000000000000000100#32) = .ok .decodeRec := by decide
/-- R152: "0x00000010 (OP = 0 but a reserved bit set) is BAD_CMD, not NOP". -/
theorem test_decode_reserved_bit :
    decode (.cmd 0b00000000000000000000000000010000#32) = .error (.reservedCommand 0x10#32) := by decide
/-- P1 step 2: (0x9, 0x10, 0x00000000). -/
theorem test_decode_regWrite32 :
    decode (.txn ⟨0b1001#4, 0x10#32, 0#32⟩) = .ok (.regWrite32 0x10#32 0#32) := by decide
/-- P2 step 1: (0x3, 0x08, 0x54). -/
theorem test_decode_bufWrite8 :
    decode (.txn ⟨0b0011#4, 0x08#32, 0x54#32⟩) = .ok (.bufWrite8 0x08#32 0x54#32) := by decide
theorem test_decode_refused_kinds :
    [0x0#4, 0x1#4, 0x4#4, 0x5#4, 0x6#4, 0x7#4, 0xC#4, 0xD#4, 0xE#4, 0xF#4].all
      (fun k => decodeTxn ⟨k, 0#32, 0#32⟩ == .error (.refusedKind k)) = true := by decide
/-- The table's bit numbering: kind in bits 3:0, offset from bit 8, write data from bit 40 (log 10). -/
theorem test_decode_table_word :
    decodeTableWord 72 (0xB + 0x04 * 2 ^ 8 + 0x52755374 * 2 ^ 40) =
      some (.bufWrite32 0x04#32 0x52755374#32) := by decide
theorem test_decode_table_rows :
    decodeTableWord 32 1 = some .crcReset ∧ decodeTableWord 8 0x8 = some (.regRead32 0#32) ∧
      decodeTableWord 32 8 = none := by decide

/-! ## CRC and flag words -/

/-- V-CRC-2 to V-CRC-5. -/
theorem test_crc_byte :
    crcByte 0#32 0x01#8 = 0x77073096#32 ∧ crcByte 0#32 0x80#8 = 0xEDB88320#32 ∧
      crcByte 0xFFFFFFFF#32 0x00#8 = 0x2DFD1072#32 ∧ crcByte 0xFFFFFFFF#32 0xFF#8 = 0x00FFFFFF#32 := by
  decide +kernel
/-- V-CRC-8 and V-CRC-1: the check value and the source's known vector, 2882656334. -/
theorem test_crc32 :
    crc32 (bytesOf digits) = 0xCBF43926#32 ∧
      crc32 (bytesOf ([0x52, 0x75, 0x53, 0x74] ++ secret)) = 2882656334#32 := by decide +kernel
/-- V-TAG-1, V-TAG-2, V-TAG-9, V-TAG-10, V-SRC-7, V-SRC-8. -/
theorem test_tag_flags :
    [0x00000000#32, 0xFFFFFFFF#32, 0x74455874#32, 0x405B607B#32, 0x52757374#32, 0x52755354#32].map tagFlagsOf =
      [0x17#32, 0x08#32, 0x3E#32, 0x0B#32, 0x29#32, 0x35#32] := by decide +kernel

/-! ## Commands -/

/-- V-BUS-15: the sticky bits survive NOP. -/
theorem test_nop :
    after statusWord (exec .nop { busyWith 0#32 0#32 0#32 0#32 0#32 [] with status := sticky }) =
      some 0x302#32 := by decide +kernel
/-- V-BUS-16: a reserved word reports BAD_CMD. -/
theorem test_reserved_command :
    after statusWord (runCommand (busyWith 0x80000000#32 0#32 0#32 0#32 0#32 [])) = some 0x42#32 := by
  decide +kernel
/-- V-CRC-25. -/
theorem test_crcReset :
    after (fun t => (t.regs.crcAcc, regValue t .crcResult))
      (exec .crcReset { idleWith [] with regs := { Regs.reset with crcAcc := 0#32 } }) =
      some (0xFFFFFFFF#32, 0#32) := by decide +kernel
/-- V-CRC-16. -/
theorem test_crcFeed :
    after (fun t => (t.regs.crcAcc, regValue t .crcResult, statusWord t))
      (exec .crcFeed (busyWith 2#32 0#32 9#32 0#32 0#32 (bytesAt 0 digits))) =
      some (0x340BC6D9#32, 0xCBF43926#32, 0x02#32) := by decide +kernel
/-- V-CRC-19: RANGE, no wrap, CRC_ACC kept. -/
theorem test_crcFeed_range :
    after (fun t => (t.regs.crcAcc, statusWord t))
      (exec .crcFeed { busyWith 2#32 0xFFFFFFFF#32 2#32 0#32 0#32 [] with
        regs := { Regs.reset with crcAcc := 0x12345678#32 } }) =
      some (0x12345678#32, 0x32#32) := by decide +kernel
/-- P2: the source's known vector, framed. -/
theorem test_encodeRec :
    after (fun t => (t.regs.calcCrc, t.regs.consumed, statusWord t, memBytes t 0 8, memBytes t 50 4))
      (exec .encodeRec (busyWith 3#32 0#32 0#32 42#32 0x52755374#32 (bytesAt 8 secret))) =
      some (0xABD1D84E#32, 54#32, 0x02#32, bytesOf [0, 0, 0, 0x2A, 0x52, 0x75, 0x53, 0x74],
        bytesOf [0xAB, 0xD1, 0xD8, 0x4E]) := by decide +kernel
/-- V-ENC-8: one byte too far. -/
theorem test_encodeRec_range :
    after (fun t => (t.regs.consumed, t.regs.calcCrc, statusWord t, t.buf))
      (exec .encodeRec (busyWith 3#32 4085#32 0#32 0#32 0x49454E44#32 [])) =
      some (0#32, 0#32, 0x32#32, []) := by decide +kernel
/-- V-DEC-7: bytes after the record are ignored. -/
theorem test_decodeRec :
    after (fun t => (t.regs.len, t.regs.tag, t.regs.rxCrc, t.regs.calcCrc, t.regs.consumed, statusWord t))
      (exec .decodeRec (busyWith 4#32 0#32 16#32 9#32 9#32 (bytesAt 0 (iend12 ++ [0xDE, 0xAD, 0xBE, 0xEF])))) =
      some (0#32, 0x49454E44#32, 0xAE426082#32, 0xAE426082#32, 12#32, 0x02#32) := by decide +kernel
/-- V-DEC-3: a length of 2^32 - 1 is TRUNCATED; LEN and TAG are new. -/
theorem test_decodeRec_truncated :
    after (fun t => (t.regs.len, t.regs.tag, t.regs.rxCrc, t.regs.consumed, statusWord t))
      (exec .decodeRec (busyWith 4#32 0#32 12#32 0#32 0#32
        (bytesAt 0 [0xFF, 0xFF, 0xFF, 0xFF, 0x49, 0x45, 0x4E, 0x44, 0xAE, 0x42, 0x60, 0x82]))) =
      some (0xFFFFFFFF#32, 0x49454E44#32, 0#32, 0#32, 0x12#32) := by decide +kernel

/-! ## Transactions -/

/-- V-SRC-1. -/
theorem test_regRead32 :
    after State.rdata (exec (.regRead32 0x18#32)
      { idleWith [] with regs := { Regs.reset with tag := 0x52755374#32 } }) = some (some 0x3D#32) := by decide +kernel
/-- V-BUS-3. -/
theorem test_regRead32_misaligned :
    after (fun t => (t.rdata, statusWord t)) (exec (.regRead32 0x06#32) (idleWith [])) =
      some (some 0#32, 0x200#32) := by decide +kernel
/-- V-BUS-12: STATUS = 0x312. -/
theorem test_regWrite32_w1c :
    after statusWord (exec (.regWrite32 0x04#32 0x100#32)
      { idleWith [] with status := { sticky with done := true, err := .truncated } }) = some 0x212#32 := by
  decide +kernel
/-- V-BUS-19. -/
theorem test_regWrite32_busy :
    after (fun t => (t.regs.len, t.status.busErr))
      (exec (.regWrite32 0x10#32 9#32) (busyWith 2#32 0#32 0#32 7#32 0#32 [])) = some (7#32, true) := by decide +kernel
/-- V-BUS-8. -/
theorem test_bufRead8 :
    after State.rdata (exec (.bufRead8 4095#32) (idleWith [(4095, 0xA5#8)])) = some (some 0xA5#32) := by
  decide +kernel
/-- V-BUS-7. -/
theorem test_bufRead8_out_of_range :
    after (fun t => (t.rdata, statusWord t)) (exec (.bufRead8 4096#32) (idleWith [])) =
      some (some 0#32, 0x200#32) := by decide +kernel
/-- V-BUS-11: wdata[31:8] is ignored. -/
theorem test_bufWrite8 :
    after State.buf (exec (.bufWrite8 0#32 0x1FF#32) (idleWith [])) = some [(0, 0xFF#8)] := by decide +kernel
/-- V-BUS-9: after WW 8, 0. -/
theorem test_bufWrite8_lane :
    after (fun t => memRead32 t 8) (exec (.bufWrite8 9#32 0xAB#32) (idleWith (bytesAt 8 [0, 0, 0, 0]))) =
      some 0x00AB0000#32 := by decide +kernel
/-- P1 step 8. -/
theorem test_bufRead32 :
    after State.rdata (exec (.bufRead32 8#32) (idleWith (bytesAt 0 iend12))) = some (some 0xAE426082#32) := by
  decide +kernel
/-- P5 step 10: a misaligned word read is refused. -/
theorem test_bufRead32_misaligned :
    after (fun t => (t.rdata, statusWord t)) (exec (.bufRead32 2#32) (idleWith (bytesAt 0 iend12))) =
      some (some 0#32, 0x200#32) := by decide +kernel
/-- V-BUS-10. -/
theorem test_bufWrite32 :
    after State.buf (exec (.bufWrite32 4#32 0x52755374#32) (idleWith [])) =
      some (bytesAt 4 [0x52, 0x75, 0x53, 0x74]) := by decide +kernel
/-- V-BUS-7: the last offset does not wrap. -/
theorem test_bufWrite32_out_of_range :
    after (fun t => (t.buf, statusWord t)) (exec (.bufWrite32 0xFFFFFFFC#32 1#32) (idleWith [])) =
      some ([], 0x200#32) := by decide +kernel
/-- V-BUS-4: size code 3 is refused by kind. -/
theorem test_refused_kind :
    after (fun t => (t.rdata, statusWord t)) (runTxn ⟨0xE#4, 0#32, 0#32⟩ (idleWith [])) =
      some (some 0#32, 0x200#32) := by decide +kernel

/-! ## The step, the host notation, and the first step after reset -/

/-- P6: the NOP written before the DECODE completes is dropped, or, after it, accepted. -/
theorem test_step_dropped_or_accepted :
    let s := busyWith 4#32 0#32 12#32 0#32 0#32 (bytesAt 0 iend12)
    let nopWrite : Event := .txn ⟨0x9#4, 0x00#32, 0#32⟩
    after statusWord (Host.Core.run Sys2Proof.core 2 { s with schedule := [nopWrite, .engineRun] }) = some 0x102#32 ∧
      after statusWord (Host.Core.run Sys2Proof.core 3 { s with schedule := [.engineRun, nopWrite, .engineRun] }) =
        some 0x02#32 := by decide +kernel
/-- R120: `RUN ENCODE` with one repetition of POLL, and `WBS 8, "Th"` (P2). -/
theorem test_host_notation :
    (HostLine.run .encodeRec 1).expand =
        [⟨0x9#4, 0x00#32, 0x00000003#32⟩, ⟨0x8#4, 0x04#32, 0#32⟩, ⟨0x8#4, 0x04#32, 0#32⟩] ∧
      (HostLine.wbs 8#32 [0x54#8, 0x68#8]).expand =
        [⟨0x3#4, 0x08#32, 0x54#32⟩, ⟨0x3#4, 0x09#32, 0x68#32⟩] := by decide +kernel
/-- R140: after reset, RD CRC_ACC returns 0xFFFFFFFF, as the first step. -/
theorem test_first_step_after_reset :
    after State.rdata (step (State.reset.withFetchWord 40 (0x8 + 0x28 * 2 ^ 8))) = some (some 0xFFFFFFFF#32) := by
  decide +kernel
theorem test_first_command_after_reset :
    after statusWord (step (State.reset.withFetchWord 32 3)) = some 0x02#32 := by decide +kernel

/-! ## Witnesses: concrete states and operands that meet the hypotheses of each obligation, clause by clause -/

/-- An accepted ENCODE of an IEND record that ends at the last byte (V-ENC-6). -/
def encLast : State := busyWith 3#32 4084#32 0#32 0#32 0x49454E44#32 []
/-- An accepted DECODE whose window ends exactly at the end of BUF (V-DEC-8). -/
def decLast : State := busyWith 4#32 4084#32 12#32 0#32 0#32 (bytesAt 4084 iend12)
/-- An accepted CRC_FEED of "123456789" (V-CRC-16). -/
def feedDigits : State := busyWith 2#32 0#32 9#32 0#32 0#32 (bytesAt 0 digits)

/-- The invariant of an accepted command, from its decidable parts. -/
theorem inv_of_parts (s : State) (h1 : legalBufBytes s.bufBytes = true ∧ s.buf.wf = true ∧ s.eng.i ≤ 4294967296)
    (h2 : ∀ c ∈ s.buf, c.1 < s.bufBytes) (h3 : EngineInv s)
    (h4 : s.status.done = false ∧ s.status.err = .noErr)
    (h5 : s.eng.a = s.regs.addr ∧ s.eng.n = if s.eng.op = 0x3#32 then s.regs.len else s.regs.count) : s.Inv :=
  ⟨h1.1, h1.2.1, h2, h1.2.2, h3, fun _ => h4, fun _ => h4.2, fun _ => h5⟩

theorem encLast_inv : encLast.Inv :=
  inv_of_parts _ (by decide +kernel) (by decide +kernel) (show _ = _ by decide +kernel) (by decide +kernel)
    (by decide +kernel)
theorem decLast_inv : decLast.Inv :=
  inv_of_parts _ (by decide +kernel) (by decide +kernel) (show _ = _ by decide +kernel) (by decide +kernel)
    (by decide +kernel)

theorem witness_TransactionKindsAreExactlyTheTable :
    [0x8#4, 0x9#4, 0x2#4, 0x3#4, 0xA#4, 0xB#4].map (fun k => (⟨k, 0xFFFFFFFF#32, 1#32⟩ : Txn).kind) =
      [0x8#4, 0x9#4, 0x2#4, 0x3#4, 0xA#4, 0xB#4] := by decide

/-- A transaction that decodes, and one of a refused kind. -/
theorem witness_StepRunsDecodedInstruction_txn :
    (∃ (s : State) (x : Txn) (rest : List Event), s.schedule = .txn x :: rest ∧
      decode (.txn x) = .ok (.regRead32 4#32)) ∧
    (∃ (s : State) (x : Txn) (rest : List Event), s.schedule = .txn x :: rest ∧
      decode (.txn x) = .error (.refusedKind 0xE#4)) :=
  ⟨⟨{ idleWith [] with schedule := [.txn ⟨0x8#4, 4#32, 0#32⟩] }, _, _, rfl, by decide +kernel⟩,
    ⟨{ idleWith [] with schedule := [.txn ⟨0xE#4, 4#32, 0#32⟩] }, _, _, rfl, by decide +kernel⟩⟩
/-- A merged run of ENCODE, of a reserved word, and of an idle engine. -/
theorem witness_StepRunsDecodedInstruction_run :
    (encLast.eng.st ≠ .idle ∧ decode (.cmd encLast.eng.op) = .ok .encodeRec) ∧
      ((busyWith 7#32 0#32 0#32 0#32 0#32 []).eng.st ≠ .idle ∧
        decode (.cmd (busyWith 7#32 0#32 0#32 0#32 0#32 []).eng.op) = .error (.reservedCommand 7#32)) ∧
      (idleWith []).eng.st = .idle ∧
      ({ encLast with schedule := [.engineRun] } : State).schedule = [Event.engineRun] := by decide +kernel
/-- The other entries, and none. -/
theorem witness_StepRunsDecodedInstruction_other :
    ({ encLast with schedule := [.engineStep] } : State).schedule = [Event.engineStep] ∧
      ({ encLast with schedule := [.reset] } : State).schedule = [Event.reset] ∧ (idleWith []).schedule = [] ∧
      (idleWith []).eng.st = .idle := by decide +kernel

/-- A reset while a command runs. -/
theorem witness_ResetEventRestoresEveryRegister :
    ∃ (s : State) (rest : List Event), s.schedule = .reset :: rest ∧ s.eng.st ≠ .idle :=
  ⟨{ encLast with schedule := [.reset] }, [], rfl, by decide +kernel⟩

theorem witness_ResetRegisterReads :
    (0x00#32, 0#32) ∈ [(0x00#32, 0#32), (0x30#32, BitVec.ofNat 32 Config.bufBytes)] ∧
      (0x30#32, BitVec.ofNat 32 Config.bufBytes) ∈ [(0x00#32, 0#32), (0x30#32, BitVec.ofNat 32 Config.bufBytes)] :=
  ⟨List.mem_cons_self, List.mem_cons_of_mem _ List.mem_cons_self⟩

/-- With nothing scheduled, and with a host transaction scheduled. -/
theorem witness_StepKeepsInvariant :
    (∃ s t, s.Inv ∧ step s = .next t) ∧ ∃ s t, s.Inv ∧ s.schedule ≠ [] ∧ step s = .next t :=
  ⟨⟨encLast, _, encLast_inv, rfl⟩,
    ⟨{ encLast with schedule := [.txn ⟨0x9#4, 0#32, 0#32⟩] }, _,
      ⟨encLast_inv.1, encLast_inv.2, encLast_inv.3, encLast_inv.4, encLast_inv.5, encLast_inv.6, encLast_inv.7,
        encLast_inv.8⟩, by decide +kernel, rfl⟩⟩

/-- Idle at each listed offset's ends and beyond; busy outside the write set (V-BUS-2, V-BUS-22). -/
theorem witness_RegisterReadReturnsItsValue :
    (((0x00#32).toNat % 4 = 0 ∧ (0x30#32).toNat % 4 = 0 ∧ (0x34#32).toNat % 4 = 0 ∧ (0xFFFFFFFC#32).toNat % 4 = 0) ∧
      ¬ ((idleWith []).eng.st ≠ .idle ∧ regAt 0x28#32 ∈ writeSet (idleWith []).eng.op)) ∧
    (encLast.eng.st ≠ .idle ∧ ¬ (encLast.eng.st ≠ .idle ∧ regAt 0x08#32 ∈ writeSet encLast.eng.op)) := by
  decide +kernel

theorem witness_BusyReadsOfTheWriteSetAreDraws :
    (feedDigits.eng.st ≠ .idle ∧ feedDigits.eng.op = 2#32) ∧
      ((busyWith 1#32 0#32 0#32 0#32 0#32 []).eng.st ≠ .idle ∧
        (busyWith 1#32 0#32 0#32 0#32 0#32 []).eng.op = 1#32) ∧
      (encLast.eng.st ≠ .idle ∧ encLast.eng.op = 3#32) ∧ (decLast.eng.st ≠ .idle ∧ decLast.eng.op = 4#32) := by
  decide +kernel
theorem witness_BusyReadsOfTheWriteSetAreDraws_status : encLast.eng.st ≠ .idle ∧ encLast.Inv :=
  ⟨by decide +kernel, encLast_inv⟩

/-- One transaction for each ground of refusal, at its boundary (V-BUS-3, V-BUS-4, V-BUS-7). -/
theorem witness_RefusedTransactionOnlySetsBusErr :
    (0x6#4 : BitVec 4) ∉ [0x8#4, 0x9#4, 0x2#4, 0x3#4, 0xA#4, 0xB#4] ∧
      (0x06#32).toNat % 4 ≠ 0 ∧ (idleWith []).bufBytes ≤ (4096#32).toNat ∧
      (idleWith []).bufBytes < (4096#32).toNat + 4 ∧ (4094#32).toNat % 4 ≠ 0 ∧
      (0x8#4 : BitVec 4) ∈ [0x8#4, 0x9#4] ∧ (0x3#4 : BitVec 4) ∈ [0x2#4, 0x3#4] ∧ (0xB#4 : BitVec 4) ∈ [0xA#4, 0xB#4] := by
  decide +kernel

theorem witness_BusyRefusal :
    encLast.eng.st ≠ .idle ∧ 0x08#32 ≠ 0x00#32 ∧ 0x08#32 ≠ 0x04#32 ∧ 0x01#32 ≠ 0x00#32 ∧
      (0xFFFFFFFC#32).toNat % 4 = 0 := by decide +kernel
theorem witness_CmdWriteWhileBusyIsDropped : decLast.eng.st ≠ .idle := by decide +kernel
theorem witness_CommandAcceptanceLatchesOperands : (idleWith []).eng.st = .idle := rfl
theorem witness_StatusWriteClearsStickyBits : (0 : Nat) ≠ 8 ∧ (0 : Nat) ≠ 9 := by decide
theorem witness_RegisterWriteStoresAllBits : (idleWith []).eng.st = .idle := rfl
theorem witness_ReservedOffsetsReadZeroIgnoreWrites :
    0x34 ≤ (0x34#32).toNat ∧ (0x34#32).toNat % 4 = 0 ∧ (idleWith []).eng.st = .idle ∧ encLast.eng.st ≠ .idle ∧
      0x34 ≤ (0xFFFFFFFF#32).toNat ∧ (0xFFFFFFFF#32).toNat % 4 ≠ 0 := by decide +kernel
theorem witness_ReadOnlyRegistersIgnoreTheHost :
    (∃ t, runTxn ⟨0x9#4, 0x1C#32, 5#32⟩ (idleWith []) = .next t) ∧ (idleWith []).eng.st = .idle ∧
      0x30#32 ∈ [0x18#32, 0x1C#32, 0x20#32, 0x24#32, 0x2C#32, 0x30#32] :=
  ⟨⟨_, rfl⟩, rfl, by decide⟩
/-- For each kind of read, one that is refused at the boundary and one that is not; and a read that draws. -/
theorem witness_HostReadsHaveNoSideEffect :
    ((∃ t, exec (.regRead32 4#32) (idleWith []) = .next t ∧ t.draws = (idleWith []).draws) ∧
      ¬ (4#32).toNat % 4 ≠ 0 ∧ (0xFFFFFFFF#32).toNat % 4 ≠ 0) ∧
    ((∃ t, exec (.bufRead8 4095#32) (idleWith []) = .next t) ∧
      ¬ ((idleWith []).bufBytes ≤ (4095#32).toNat ∨ (idleWith []).eng.st ≠ .idle) ∧
      (idleWith []).bufBytes ≤ (4096#32).toNat ∧ encLast.eng.st ≠ .idle) ∧
    ((∃ t, exec (.bufRead32 4092#32) (idleWith []) = .next t) ∧
      ¬ ((4092#32).toNat % 4 ≠ 0 ∨ (idleWith []).bufBytes < (4092#32).toNat + 4 ∨ (idleWith []).eng.st ≠ .idle) ∧
      (4093#32).toNat % 4 ≠ 0 ∧ (idleWith []).bufBytes < (4096#32).toNat + 4) ∧
    (∃ t, exec (.regRead32 0x20#32) encLast = .next t ∧ t.draws ≠ encLast.draws) :=
  ⟨⟨⟨_, rfl, rfl⟩, by decide +kernel⟩, ⟨⟨_, rfl⟩, by decide +kernel⟩, ⟨⟨_, rfl⟩, by decide +kernel⟩,
    ⟨_, rfl, by decide +kernel⟩⟩
theorem witness_BufferReadsReturnTheBytes :
    (idleWith []).eng.st = .idle ∧ encLast.eng.st ≠ .idle ∧ (4095#32).toNat < (idleWith []).bufBytes ∧
      (idleWith []).bufBytes ≤ (4096#32).toNat ∧ (4092#32).toNat % 4 = 0 ∧
      (4092#32).toNat + 4 ≤ (idleWith []).bufBytes ∧ (4094#32).toNat % 4 ≠ 0 ∧
      (idleWith []).bufBytes < (4096#32).toNat + 4 := by decide +kernel
theorem witness_BufferWritesStoreTheBytes :
    (idleWith []).eng.st = .idle ∧ encLast.eng.st ≠ .idle ∧ (4095#32).toNat < (idleWith []).bufBytes ∧
      (idleWith []).bufBytes ≤ (4096#32).toNat ∧ (4092#32).toNat % 4 = 0 ∧
      (4092#32).toNat + 4 ≤ (idleWith []).bufBytes ∧ (4094#32).toNat % 4 ≠ 0 ∧ 4094 ≠ (4095#32).toNat ∧ 4091 < (4092#32).toNat ∧
      (0#32).toNat + 4 ≤ 4 := by decide +kernel
theorem witness_WordAndByteAccessesAgree :
    (idleWith []).eng.st = .idle ∧ 3 < 4 ∧ (4092#32).toNat % 4 = 0 ∧
      (4092#32).toNat + 4 ≤ (idleWith []).bufBytes := by decide +kernel
/-- The least word with a reserved bit, the least reserved opcode, and the last word (V-BUS-16). -/
theorem witness_ReservedCommandCompletesBadCmd :
    (idleWith []).eng.st = .idle ∧ [0x10#32, 0x5#32, 0xFFFFFFFF#32].all (fun w =>
      decide (w.extractLsb' 4 28 ≠ 0#28 ∨ 5 ≤ (w.extractLsb' 0 4).toNat)) = true := by decide +kernel
theorem witness_NopOnlyReportsCompletion : (busyWith 0#32 0#32 0#32 0#32 0#32 []).eng.st = .xNop := by decide +kernel
/-- V-CRC-17 and V-CRC-18: the last range that fits and the first that does not, and no bytes at all. -/
theorem witness_CrcFeedFoldsItsRange :
    engA (busyWith 2#32 4096#32 0#32 0#32 0#32 []) + engN (busyWith 2#32 4096#32 0#32 0#32 0#32 []) ≤ 4096 ∧
      4096 < engA (busyWith 2#32 4097#32 0#32 0#32 0#32 []) + engN (busyWith 2#32 4097#32 0#32 0#32 0#32 []) ∧
      engN (busyWith 2#32 4096#32 0#32 0#32 0#32 []) = 0 ∧
      ∃ t, exec .crcFeed (busyWith 2#32 4096#32 0#32 0#32 0#32 []) = .next t :=
  ⟨by decide +kernel, by decide +kernel, by decide +kernel, _, rfl⟩
/-- P3: "1234" is fed, then "56789". -/
def feedFirst : State := { feedDigits with eng := { feedDigits.eng with n := 4#32 } }
def feedRest : State :=
  { busyWith 2#32 4#32 5#32 0#32 0#32 (bytesAt 0 digits) with
    regs := { Regs.reset with addr := 4#32, count := 5#32, crcAcc := 0x641C1F5C#32 } }
theorem witness_CrcFeedsCompose :
    (engA feedDigits + (4#32).toNat + (5#32).toNat ≤ feedDigits.bufBytes ∧
      engN feedDigits = (4#32).toNat + (5#32).toNat ∧ feedDigits.regs.crcAcc = 0xFFFFFFFF#32) ∧
    (feedRest.buf = feedDigits.buf ∧ feedRest.epoch = feedDigits.epoch ∧
      feedRest.bufBytes = feedDigits.bufBytes ∧ engA feedRest = engA feedDigits + (4#32).toNat ∧
      feedRest.eng.n = 5#32) ∧
    after (fun t1 => t1.regs.crcAcc) (exec .crcFeed feedFirst) = some feedRest.regs.crcAcc ∧
    (after (fun _ => true) (exec .crcFeed feedRest) = some true ∧
      after (fun _ => true) (exec .crcFeed feedDigits) = some true) := by decide +kernel
theorem witness_OneByteChangeChangesTheCrc : (0x49#8 : Byte) ≠ 0x69#8 := by decide
theorem witness_EncodeSuccessWritesExactlyTheRecord :
    engA encLast + 12 + engN encLast ≤ encLast.bufBytes ∧ 3 < 4 ∧
      ¬ (engA encLast ≤ 4083 ∧ 4083 < engA encLast + 8) ∧
      ¬ (engA encLast + 8 + engN encLast ≤ 4083 ∧ 4083 < engA encLast + 12 + engN encLast) := by decide +kernel
/-- V-ENC-8 and the least length that never fits. -/
theorem witness_EncodeOutOfRangeWritesOnlyConsumed :
    4096 < engA (busyWith 3#32 4085#32 0#32 0#32 0#32 []) + 12 + engN (busyWith 3#32 4085#32 0#32 0#32 0#32 []) ∧
      legalBufBytes (idleWith []).bufBytes = true ∧
      4294967284 ≤ engN (busyWith 3#32 0#32 0#32 0xFFFFFFF4#32 0#32 []) := by decide +kernel
theorem witness_EncodedRecordHasTheLayout :
    ∃ t, legalBufBytes encLast.bufBytes = true ∧ engA encLast + 12 + engN encLast ≤ encLast.bufBytes ∧
      exec .encodeRec encLast = .next t ∧ engA encLast % 4 = 0 :=
  ⟨_, by decide +kernel, by decide +kernel, rfl, by decide +kernel⟩

/-- V-DEC-9 and V-DEC-15: RANGE, and the empty window that is only TRUNCATED. -/
theorem witness_DecodeOutcomes_window :
    4096 < engA (busyWith 4#32 4090#32 12#32 0#32 0#32 []) + engN (busyWith 4#32 4090#32 12#32 0#32 0#32 []) ∧
      engA (busyWith 4#32 4096#32 0#32 0#32 0#32 []) + engN (busyWith 4#32 4096#32 0#32 0#32 0#32 []) ≤ 4096 ∧
      engN (busyWith 4#32 4085#32 11#32 0#32 0#32 []) < 12 := by decide +kernel
/-- A DECODE over a whole buffer's first bytes. -/
def decodeOf (n : Word) (bytes : List Nat) : State := busyWith 4#32 0#32 n 0#32 0#32 (bytesAt 0 bytes)
/-- V-DEC-4 with one byte too few, V-DEC-5, and V-DEC-8. -/
theorem witness_DecodeOutcomes_record :
    (engN (decodeOf 16#32 [0, 0, 0, 5, 0x49, 0x45, 0x4E, 0x44, 0x61, 0x62, 0x63, 0x64]) <
        12 + (memRead32 (decodeOf 16#32 [0, 0, 0, 5, 0x49, 0x45, 0x4E, 0x44, 0x61, 0x62, 0x63, 0x64]) 0).toNat) ∧
      (memRead32 (decodeOf 12#32 [0, 0, 0, 0, 0x49, 0x45, 0x4E, 0x44, 0xAE, 0x42, 0x60, 0x83]) 8 ≠
        crc32 (bytesOf [0x49, 0x45, 0x4E, 0x44])) ∧
      (12 ≤ engN decLast ∧ 12 + (memRead32 decLast (engA decLast)).toNat ≤ engN decLast ∧
        memRead32 decLast (engA decLast + 8) = crc32 (memBytes decLast (engA decLast + 4) 4)) := by decide +kernel
/-- V-DEC-7: the buffers differ only after the record. -/
theorem witness_DecodeIgnoresBytesOutsideTheRecord :
    ∃ t, (∀ x, engA (decodeOf 12#32 iend12) ≤ x →
        x < engA (decodeOf 12#32 iend12) + 12 + (memRead32 (decodeOf 12#32 iend12) 0).toNat →
        memRead8 { decodeOf 12#32 iend12 with buf := bytesAt 0 (iend12 ++ [0xDE]) } x =
          memRead8 (decodeOf 12#32 iend12) x) ∧ exec .decodeRec (decodeOf 12#32 iend12) = .next t := by
  refine ⟨_, ?_, rfl⟩
  intro x _ hx
  have h : x < 12 := by
    have e : engA (decodeOf 12#32 iend12) + 12 + (memRead32 (decodeOf 12#32 iend12) 0).toNat = 12 := by decide +kernel
    omega
  revert h
  exact (by decide +kernel : ∀ x < 12,
    memRead8 { decodeOf 12#32 iend12 with buf := bytesAt 0 (iend12 ++ [0xDE]) } x =
      memRead8 (decodeOf 12#32 iend12) x) x
theorem witness_ChecksumFieldFlipIsRejected :
    ∃ t, 31 < 32 ∧ exec .decodeRec decLast = .next t ∧ t.status.err = .noErr :=
  ⟨_, by decide, rfl, by decide +kernel⟩
theorem witness_ConsumedMarksSuccess :
    legalBufBytes encLast.bufBytes = true ∧ (∃ t, exec .encodeRec encLast = .next t) ∧
      ∃ t, exec .decodeRec decLast = .next t :=
  ⟨by decide +kernel, ⟨_, rfl⟩, ⟨_, rfl⟩⟩
theorem witness_EncodeThenDecodeRoundTrips :
    ∃ t u, engA encLast + 12 + engN encLast ≤ encLast.bufBytes ∧ exec .encodeRec encLast = .next t ∧
      u.buf = t.buf ∧ u.epoch = t.epoch ∧ u.bufBytes = t.bufBytes ∧ u.eng.a = encLast.eng.a ∧
      12 + engN encLast ≤ engN u ∧ engA u + engN u ≤ u.bufBytes :=
  ⟨_, { encodeResult encLast with eng := engine .dChk 4#32 4084#32 12#32 }, by decide +kernel, rfl, rfl, rfl, rfl,
    by decide +kernel, by decide +kernel, by decide +kernel⟩
/-- The ENCODE that the registers DECODE left would start. -/
def reencoder : State := busyWith 3#32 4084#32 12#32 0#32 0x49454E44#32 (bytesAt 4084 iend12)
theorem witness_ReencodeOfADecodedRecordIsIdempotent :
    after (fun v => decide (v.status.err = .noErr ∧ reencoder.buf = v.buf ∧ reencoder.epoch = v.epoch ∧
      reencoder.bufBytes = v.bufBytes ∧ reencoder.regs.tag = v.regs.tag ∧ reencoder.eng.a = decLast.eng.a ∧
      reencoder.eng.n = v.regs.len)) (exec .decodeRec decLast) = some true := by decide +kernel

theorem witness_CrcMachineReachesItsCompletion :
    (∃ t, feedDigits.eng.st = .fRun ∧ feedDigits.eng.op = 2#32 ∧ exec .crcFeed feedDigits = .next t) ∧
      ∃ t, (busyWith 1#32 0#32 0#32 0#32 0#32 []).eng.st = .fRun ∧
        exec .crcReset (busyWith 1#32 0#32 0#32 0#32 0#32 []) = .next t :=
  ⟨⟨_, by decide +kernel, by decide +kernel, rfl⟩, ⟨_, by decide +kernel, rfl⟩⟩
theorem witness_EncodeMachineReachesItsCompletion :
    ∃ t, encLast.eng.st = .eChk ∧ exec .encodeRec encLast = .next t := ⟨_, by decide +kernel, rfl⟩
theorem witness_DecodeMachineReachesItsCompletion :
    ∃ t, decLast.eng.st = .dChk ∧ exec .decodeRec decLast = .next t := ⟨_, by decide +kernel, rfl⟩
/-- ENCODE in the middle of its trailer. -/
theorem witness_MergedAndSplitRowsAgree :
    ∃ t, encLast.Inv ∧ encLast.eng.st = firstState encLast.eng.op ∧ runCommand encLast = .next t ∧
      (engineRows 13 encLast).eng.st ≠ .idle :=
  ⟨_, encLast_inv, by decide +kernel, rfl, by decide +kernel⟩
theorem witness_BusyMachineCompletes : decLast.Inv ∧ decLast.eng.st ≠ .idle ∧ decLast.schedule = [] :=
  ⟨decLast_inv, by decide +kernel, rfl⟩
theorem witness_CompletionIsOneStep :
    encLast.eng.st ≠ .idle ∧ (engineRow encLast).eng.st ≠ .idle ∧
      (busyWith 0#32 0#32 0#32 0#32 0#32 []).eng.st ≠ .idle ∧
      (engineRow (busyWith 0#32 0#32 0#32 0#32 0#32 [])).eng.st = .idle := by decide +kernel
/-- An ENCODE past its check, about to write the first length byte over an old byte. -/
def encHeader : State := { busyWith 3#32 0#32 0#32 4#32 0#32 [(0, 0xFF#8)] with
  eng := engine .eHdr 3#32 0#32 4#32 }
theorem witness_EngineRowWritesOnlyTheRecord :
    encHeader.Inv ∧ memRead8 (engineRow encHeader) 0 ≠ memRead8 encHeader 0 :=
  ⟨inv_of_parts _ (by decide +kernel) (by decide +kernel)
    (show _ = _ ∧ _ ≤ _ ∧ _ ≤ _ from ⟨by decide +kernel, by decide +kernel, by decide +kernel⟩)
    (by decide +kernel) (by decide +kernel), by decide +kernel⟩

theorem witness_HostCannotDisturbARunningCommand :
    ∃ t, encLast.eng.st ≠ .idle ∧ runTxn ⟨0xB#4, 0#32, 1#32⟩ encLast = .next t := ⟨_, by decide +kernel, rfl⟩
theorem witness_HostNeverFakesAResult :
    ∃ t, runTxn ⟨0x9#4, 0#32, 3#32⟩ (idleWith []) = .next t := ⟨_, rfl⟩
theorem witness_EngineLeavesHostOperandsAlone :
    (∃ t, t = engineRow encLast) ∧ ∃ t, runCommand encLast = .next t ∧ EngineInv encLast ∧
      encLast.eng.op ≠ 1#32 ∧ encLast.eng.op ≠ 2#32 :=
  ⟨⟨_, rfl⟩, ⟨_, rfl, encLast_inv.engine, by decide +kernel, by decide +kernel⟩⟩
/-- Two states that differ in a register no input names. -/
theorem witness_ResultIsAFunctionOfItsInputs :
    ∃ s s' t t', s ≠ s' ∧ s'.buf = s.buf ∧ s'.epoch = s.epoch ∧ s'.bufBytes = s.bufBytes ∧ s'.eng.a = s.eng.a ∧
      s'.eng.n = s.eng.n ∧ s'.regs.addr = s.regs.addr ∧ s'.regs.count = s.regs.count ∧ s'.regs.len = s.regs.len ∧
      s'.regs.tag = s.regs.tag ∧ s'.regs.crcAcc = s.regs.crcAcc ∧ exec .decodeRec s = .next t ∧
      exec .decodeRec s' = .next t' :=
  ⟨decLast, { decLast with regs := { decLast.regs with rxCrc := 7#32 } }, _, _, by decide +kernel, rfl, rfl, rfl, rfl,
    rfl, rfl, rfl, rfl, rfl, rfl, rfl, rfl⟩
theorem witness_IdleLatchesAreUnobservable :
    (∃ t, (idleWith []).eng.st = .idle ∧ (engine .idle 9#32 9#32 9#32).st = .idle ∧
      runTxn ⟨0x9#4, 0#32, 3#32⟩ (idleWith []) = .next t ∧ t.eng.st ≠ .idle) ∧
    ∃ t u v, SameButLatches decLast t ∧ runCommand decLast = .next u ∧ runCommand t = .next v ∧ t ≠ decLast :=
  ⟨⟨_, rfl, rfl, rfl, by decide +kernel⟩,
    ⟨{ decLast with eng := { decLast.eng with acc := 7#32, i := 3 } }, _, _, rfl, rfl, rfl, by decide +kernel⟩⟩
theorem witness_TagFlagsReadTheTagBits : (3 : Nat) < 4 ∧ (6 : Nat) ≤ 6 := by decide
/-- The last byte of a text whose offsets pass 2^32, and a line's transaction. -/
theorem witness_HostLinesAreTableTransactions :
    ([0x54#8, 0x68#8] : List Byte)[1]? = some 0x68#8 ∧
      (⟨0x3#4, 0#32, 0x68#32⟩ : Txn) ∈ (HostLine.wbs 0xFFFFFFFF#32 [0x54#8, 0x68#8]).expand ∧
      (⟨0x8#4, 0x04#32, 0#32⟩ : Txn) ∈ (HostLine.poll 0).expand := by decide +kernel

end Sys2Proof.Tests
end

/-! What every step keeps: it answers a next state (R15), and that state meets the invariant of Safety. One lemma
for each shared operation, then for each transaction, completion and row of the reference machines. -/

namespace Sys2Proof.Machine

/-! ## The step is total (R15) -/

theorem exec_answers_next (i : Instr) (s : State) : ∃ t, exec i s = .next t := by
  cases i <;> exact ⟨_, rfl⟩

theorem runTxn_answers_next (x : Txn) (s : State) : ∃ t, runTxn x s = .next t := by
  unfold runTxn
  split
  · exact exec_answers_next _ s
  · exact ⟨_, rfl⟩

theorem runCommand_answers_next (s : State) : ∃ t, runCommand s = .next t := by
  unfold runCommand
  split
  · split
    · exact exec_answers_next _ s
    · exact ⟨_, rfl⟩
  · exact ⟨_, rfl⟩

/-- Settles O6: each kind of schedule entry, and the empty schedule, answers a next state. -/
theorem everyStepAnswersNext : Obligations.EveryStepAnswersNext := by
  intro s
  unfold step
  split
  · exact runTxn_answers_next _ _
  · exact ⟨_, rfl⟩
  · exact runCommand_answers_next _
  · exact ⟨_, rfl⟩
  · exact ⟨_, rfl⟩

/-! ## The engine's invariant, state by state -/

section Invariant

variable {s : State}

theorem engineInv_fLoop (h : s.eng.st = .fLoop) : EngineInv s ↔
    s.eng.op = 0x2#32 ∧ FitsBuf s (engA s) (engN s) ∧ s.eng.i ≤ engN s := by
  simp only [EngineInv, h]

theorem engineInv_eChk (h : s.eng.st = .eChk) : EngineInv s ↔ s.eng.op = 0x3#32 := by
  simp only [EngineInv, h]

theorem engineInv_eHdr (h : s.eng.st = .eHdr) : EngineInv s ↔
    s.eng.op = 0x3#32 ∧ FitsBuf s (engA s) (12 + engN s) ∧ s.eng.i ≤ 8 := by
  simp only [EngineInv, h]

theorem engineInv_eBody (h : s.eng.st = .eBody) : EngineInv s ↔
    s.eng.op = 0x3#32 ∧ FitsBuf s (engA s) (12 + engN s) ∧ s.eng.i ≤ engN s := by
  simp only [EngineInv, h]

theorem engineInv_eTrl (h : s.eng.st = .eTrl) : EngineInv s ↔
    s.eng.op = 0x3#32 ∧ FitsBuf s (engA s) (12 + engN s) ∧ s.eng.i ≤ 4 := by
  simp only [EngineInv, h]

theorem engineInv_dChk (h : s.eng.st = .dChk) : EngineInv s ↔ s.eng.op = 0x4#32 := by
  simp only [EngineInv, h]

theorem engineInv_dHdr (h : s.eng.st = .dHdr) : EngineInv s ↔
    s.eng.op = 0x4#32 ∧ FitsBuf s (engA s) (engN s) ∧ 12 ≤ engN s ∧ s.eng.i ≤ 8 := by
  simp only [EngineInv, h]

theorem engineInv_dLen (h : s.eng.st = .dLen) : EngineInv s ↔
    s.eng.op = 0x4#32 ∧ FitsBuf s (engA s) (engN s) ∧ 12 ≤ engN s := by
  simp only [EngineInv, h]

theorem engineInv_dBody (h : s.eng.st = .dBody) : EngineInv s ↔
    s.eng.op = 0x4#32 ∧ FitsBuf s (engA s) (engN s) ∧ 12 + s.eng.len.toNat ≤ engN s ∧
      s.eng.i ≤ s.eng.len.toNat := by
  simp only [EngineInv, h]

theorem engineInv_dTrl (h : s.eng.st = .dTrl) : EngineInv s ↔
    s.eng.op = 0x4#32 ∧ FitsBuf s (engA s) (engN s) ∧ 12 + s.eng.len.toNat ≤ engN s ∧ s.eng.i ≤ 4 := by
  simp only [EngineInv, h]

theorem engineInv_dCmp (h : s.eng.st = .dCmp) : EngineInv s ↔
    s.eng.op = 0x4#32 ∧ FitsBuf s (engA s) (engN s) ∧ 12 + s.eng.len.toNat ≤ engN s := by
  simp only [EngineInv, h]

/-- The first state of an accepted command belongs to its word (R144), before any bound is known. -/
theorem engineInv_firstState (hst : s.eng.st = firstState s.eng.op) : EngineInv s := by
  unfold firstState at hst
  split at hst
  · simpa only [EngineInv, hst]
  split at hst
  · simpa only [EngineInv, hst]
  split at hst
  · simpa only [EngineInv, hst]
  split at hst
  · simpa only [EngineInv, hst]
  · simp only [EngineInv, hst]
    bv_omega

/-! ## The invariant under the shared operations -/

/-- The invariant speaks neither of the sticky bits nor of what the host was told or will do. -/
theorem State.Inv.hostView (h : s.Inv) (o b : Bool) (v : Option Word) (sch : List Event) (d : Nat) :
    State.Inv { s with
      status := { s.status with cmdOvr := o, busErr := b }, rdata := v, schedule := sch, draws := d } :=
  ⟨h.legal, h.canonical, h.inside, h.index, h.engine, h.busyClear, h.errDone, h.latched⟩

theorem State.Inv.setRegs_of_idle (h : s.Inv) (hi : ¬ Busy s) (r : Regs) : State.Inv { s with regs := r } :=
  ⟨h.legal, h.canonical, h.inside, h.index, h.engine, h.busyClear, h.errDone, fun hb => absurd hb hi⟩

theorem inv_memWriteBytes (h : s.Inv) {a : Nat} {bs : List Byte} (ha : a + bs.length ≤ s.bufBytes) :
    (memWriteBytes a bs s).Inv :=
  ⟨h.legal, memWriteBytes_wf bs s a h.canonical, memWriteBytes_below bs s a s.bufBytes h.inside ha, h.index,
    h.engine, h.busyClear, h.errDone, h.latched⟩

/-- A completion keeps the invariant whatever result registers it writes first (R245). -/
theorem inv_complete (h : s.Inv) (c : ErrCode) (r : Regs) : (complete c { s with regs := r }).Inv :=
  ⟨h.legal, h.canonical, h.inside, h.index, trivial, fun hb => absurd rfl hb, fun hd => (nomatch hd),
    fun hb => absurd rfl hb⟩

theorem inv_accept (h : s.Inv) (w : Word) : (accept w s).Inv :=
  ⟨h.legal, h.canonical, h.inside, h.index, engineInv_firstState rfl, fun _ => ⟨rfl, rfl⟩, fun _ => rfl,
    fun _ => ⟨rfl, rfl⟩⟩

theorem inv_resetEvent (h : s.Inv) : (resetEvent s).Inv where
  legal := h.legal
  canonical := rfl
  inside := fun _ hc => (nomatch hc)
  index := Nat.le_of_lt_succ (Nat.mod_lt _ (by decide))
  engine := trivial
  busyClear := fun _ => ⟨rfl, rfl⟩
  errDone := fun _ => rfl
  latched := fun hb => absurd rfl hb

/-- While a command runs, its engine may move to another state with other working latches, and the engine may write
any register but those the operands were latched from (R57): ADDR, COUNT and, for ENCODE, LEN. -/
theorem State.Inv.moveEngine (h : s.Inv) (hb : Busy s) {r : Regs} {st : EngSt} {i : Nat} {acc len rx : Word}
    (haddr : r.addr = s.regs.addr) (hcount : r.count = s.regs.count)
    (hlen : s.eng.op = 0x3#32 → r.len = s.regs.len) (hi : i ≤ 4294967296)
    (he : EngineInv { s with
      regs := r, eng := { s.eng with st := st, i := i, acc := acc, len := len, rx := rx } }) :
    State.Inv { s with regs := r, eng := { s.eng with st := st, i := i, acc := acc, len := len, rx := rx } } where
  legal := h.legal
  canonical := h.canonical
  inside := h.inside
  index := hi
  engine := he
  busyClear := fun _ => h.busyClear hb
  errDone := h.errDone
  latched := fun _ => by
    obtain ⟨ha, hn⟩ := h.latched hb
    refine ⟨ha.trans haddr.symm, hn.trans ?_⟩
    split
    · exact (hlen ‹_›).symm
    · exact hcount.symm

/-- The same where no register is written. -/
theorem State.Inv.moveLatches (h : s.Inv) (hb : Busy s) {st : EngSt} {i : Nat} {acc len rx : Word}
    (hi : i ≤ 4294967296)
    (he : EngineInv { s with eng := { s.eng with st := st, i := i, acc := acc, len := len, rx := rx } }) :
    State.Inv { s with eng := { s.eng with st := st, i := i, acc := acc, len := len, rx := rx } } :=
  h.moveEngine hb rfl rfl (fun _ => rfl) hi he

theorem busy_of_st {st : EngSt} (hst : s.eng.st = st) (hne : st ≠ .idle) : Busy s := by rwa [Busy, hst]

/-! ## Transactions -/

theorem inv_issue (h : s.Inv) (w : Word) : (issue w s).Inv := by
  obtain ⟨_, e⟩ | ⟨_, e⟩ := issue_cases w s <;> rw [e]
  · exact h.hostView _ _ _ _ _
  · exact inv_accept h w

theorem inv_storeReg (h : s.Inv) (hi : ¬ Busy s) (r : RegName) (v : Word) : (storeReg r v s).Inv := by
  obtain e | e | e | e | e | e := storeReg_cases r v s <;> rw [e]
  · exact h
  all_goals exact h.setRegs_of_idle hi _

theorem inv_runTxn (h : s.Inv) {x : Txn} {t : State} (ht : runTxn x s = .next t) : t.Inv := by
  obtain ⟨b, rfl⟩ | ⟨v, rfl⟩ | ⟨_, rfl⟩ | ⟨w, rfl⟩ | ⟨v, rfl⟩ | ⟨hi, r, v, rfl⟩ | ⟨_, a, bs, ha, rfl⟩ :=
    runTxn_cases ht
  · exact h.hostView _ _ _ _ _
  · exact h.hostView _ _ _ _ _
  · exact h.hostView _ _ _ _ _
  · exact inv_issue h w
  · exact h.hostView _ _ _ _ _
  · exact inv_storeReg h hi r v
  · exact inv_memWriteBytes h ha

/-! ## The merged run of a command -/

theorem inv_crcFeedResult (h : s.Inv) : (crcFeedResult s).Inv := by
  unfold crcFeedResult
  split
  · exact inv_complete h _ _
  · exact inv_complete h _ s.regs

/-- ENCODE's header and trailer lie inside the record, which the bound check put inside BUF (R86, R201). -/
theorem inv_encodeResult (h : s.Inv) : (encodeResult s).Inv := by
  unfold encodeResult
  split
  · rename_i hfit
    have hlength : (memWrite32 (engA s) s.eng.n s).Inv :=
      inv_memWriteBytes h (by rw [bytesBE32_length]; omega)
    have hheader : (writeHeader s).Inv :=
      inv_memWriteBytes hlength (by rw [tagBytes_length, memWrite32_bufBytes]; omega)
    exact inv_complete
      (inv_memWriteBytes hheader (by rw [bytesBE32_length, writeHeader_bufBytes]; omega)) _ _
  · exact inv_complete h _ _

/-- Every outcome of DECODE is a completion after some result registers are written (R216). -/
theorem inv_decodeResult (h : s.Inv) : (decodeResult s).Inv := by
  unfold decodeResult
  split
  · exact inv_complete h _ _
  split
  · exact inv_complete h _ _
  dsimp only
  split
  · exact inv_complete h _ _
  split
  · exact inv_complete h _ _
  · exact inv_complete h _ _

theorem inv_runCommand (h : s.Inv) {t : State} (ht : runCommand s = .next t) : t.Inv := by
  obtain ⟨_, rfl⟩ | ⟨_, hrun⟩ := runCommand_cases ht
  · exact h
  obtain ⟨_, rfl⟩ | ⟨_, rfl⟩ | ⟨_, rfl⟩ | ⟨_, rfl⟩ | ⟨_, rfl⟩ | ⟨_, rfl⟩ := hrun
  · exact inv_complete h _ s.regs
  · exact inv_complete h _ _
  · exact inv_crcFeedResult h
  · exact inv_encodeResult h
  · exact inv_decodeResult h
  · exact inv_complete h _ s.regs

/-! ## The rows of the CRC machine (R187) -/

theorem inv_rowFRun (h : s.Inv) (hst : s.eng.st = .fRun) : (rowFRun s).Inv := by
  have hb : Busy s := busy_of_st hst (by decide)
  unfold rowFRun
  split
  · exact inv_complete h _ _
  split
  · rename_i hop
    split
    · exact inv_complete h _ s.regs
    · rename_i hfit
      exact h.moveLatches hb (Nat.zero_le _) ((engineInv_fLoop rfl).2 ⟨hop, not_not.1 hfit, Nat.zero_le _⟩)
  · exact h

theorem inv_rowFLoop (h : s.Inv) (hst : s.eng.st = .fLoop) : (rowFLoop s).Inv := by
  have hb : Busy s := busy_of_st hst (by decide)
  obtain ⟨hop, hfit, _⟩ := (engineInv_fLoop hst).1 h.engine
  unfold rowFLoop
  split
  · rename_i hlt
    exact h.moveLatches hb (hlt.trans s.eng.n.isLt) ((engineInv_fLoop (by exact hst)).2 ⟨hop, hfit, hlt⟩)
  split
  · exact inv_complete h _ _
  · exact h

/-! ## The rows of the ENCODE machine (R205) -/

theorem inv_rowEChk (h : s.Inv) (hst : s.eng.st = .eChk) : (rowEChk s).Inv := by
  have hop : s.eng.op = 0x3#32 := (engineInv_eChk hst).1 h.engine
  unfold rowEChk
  split
  · exact inv_complete h _ _
  · rename_i hfit
    exact h.moveLatches (busy_of_st hst (by decide)) (Nat.zero_le _)
      ((engineInv_eHdr rfl).2 ⟨hop, not_not.1 hfit, Nat.zero_le _⟩)

/-- Each header byte is written inside the range the bound check passed. -/
theorem inv_rowEHdr (h : s.Inv) (hst : s.eng.st = .eHdr) : (rowEHdr s).Inv := by
  have hb : Busy s := busy_of_st hst (by decide)
  obtain ⟨hop, hfit, _⟩ := (engineInv_eHdr hst).1 h.engine
  have hwrite : s.eng.i < 8 → ∀ b, (memWrite8 (engA s + s.eng.i) b s).Inv :=
    fun hi b => inv_memWriteBytes (bs := [b]) h (by rw [List.length_singleton]; omega)
  unfold rowEHdr
  split
  · rename_i hlt
    exact (hwrite (by omega) _).moveLatches hb (by omega)
      ((engineInv_eHdr (by exact hst)).2 ⟨hop, hfit, hlt.trans (by decide)⟩)
  split
  · rename_i hlt
    exact (hwrite hlt _).moveLatches hb (by omega) ((engineInv_eHdr (by exact hst)).2 ⟨hop, hfit, hlt⟩)
  split
  · exact h.moveLatches hb (Nat.zero_le _) ((engineInv_eBody rfl).2 ⟨hop, hfit, Nat.zero_le _⟩)
  · exact h

theorem inv_rowEBody (h : s.Inv) (hst : s.eng.st = .eBody) : (rowEBody s).Inv := by
  have hb : Busy s := busy_of_st hst (by decide)
  obtain ⟨hop, hfit, _⟩ := (engineInv_eBody hst).1 h.engine
  unfold rowEBody
  split
  · rename_i hlt
    exact h.moveLatches hb (hlt.trans s.eng.n.isLt) ((engineInv_eBody (by exact hst)).2 ⟨hop, hfit, hlt⟩)
  split
  · exact h.moveLatches hb (Nat.zero_le _) ((engineInv_eTrl rfl).2 ⟨hop, hfit, Nat.zero_le _⟩)
  · exact h

/-- Each trailer byte is written inside the range the bound check passed. -/
theorem inv_rowETrl (h : s.Inv) (hst : s.eng.st = .eTrl) : (rowETrl s).Inv := by
  obtain ⟨hop, hfit, _⟩ := (engineInv_eTrl hst).1 h.engine
  unfold rowETrl
  split
  · rename_i hlt
    have hwrite : ∀ b, (memWrite8 (engA s + 8 + engN s + s.eng.i) b s).Inv :=
      fun b => inv_memWriteBytes (bs := [b]) h (by rw [List.length_singleton]; omega)
    exact (hwrite _).moveLatches (busy_of_st hst (by decide)) (by omega)
      ((engineInv_eTrl (by exact hst)).2 ⟨hop, hfit, hlt⟩)
  split
  · exact inv_complete h _ _
  · exact h

/-! ## The rows of the DECODE machine (R226) -/

theorem inv_rowDChk (h : s.Inv) (hst : s.eng.st = .dChk) : (rowDChk s).Inv := by
  have hop : s.eng.op = 0x4#32 := (engineInv_dChk hst).1 h.engine
  unfold rowDChk
  split
  · exact inv_complete h _ _
  rename_i hfit
  split
  · exact inv_complete h _ _
  · rename_i hmin
    exact h.moveLatches (busy_of_st hst (by decide)) (Nat.zero_le _)
      ((engineInv_dHdr rfl).2 ⟨hop, not_not.1 hfit, not_lt.1 hmin, Nat.zero_le _⟩)

/-- The header rows write TAG and LEN, which are no operands of DECODE (R56, R57). -/
theorem inv_rowDHdr (h : s.Inv) (hst : s.eng.st = .dHdr) : (rowDHdr s).Inv := by
  have hb : Busy s := busy_of_st hst (by decide)
  obtain ⟨hop, hfit, hmin, _⟩ := (engineInv_dHdr hst).1 h.engine
  have hnotEncode : s.eng.op ≠ 0x3#32 := by rw [hop]; decide
  unfold rowDHdr
  split
  · rename_i hlt
    exact h.moveLatches hb (by omega)
      ((engineInv_dHdr (by exact hst)).2 ⟨hop, hfit, hmin, hlt.trans (by decide)⟩)
  split
  · rename_i hlt
    exact h.moveEngine hb rfl rfl (fun _ => rfl) (by omega)
      ((engineInv_dHdr (by exact hst)).2 ⟨hop, hfit, hmin, hlt⟩)
  split
  · exact h.moveEngine hb rfl rfl (fun he => absurd he hnotEncode) h.index
      ((engineInv_dLen rfl).2 ⟨hop, hfit, hmin⟩)
  · exact h

theorem inv_rowDLen (h : s.Inv) (hst : s.eng.st = .dLen) : (rowDLen s).Inv := by
  obtain ⟨hop, hfit, _⟩ := (engineInv_dLen hst).1 h.engine
  unfold rowDLen
  split
  · exact inv_complete h _ _
  · rename_i hrecord
    exact h.moveLatches (busy_of_st hst (by decide)) (Nat.zero_le _)
      ((engineInv_dBody rfl).2 ⟨hop, hfit, not_lt.1 hrecord, Nat.zero_le _⟩)

theorem inv_rowDBody (h : s.Inv) (hst : s.eng.st = .dBody) : (rowDBody s).Inv := by
  have hb : Busy s := busy_of_st hst (by decide)
  obtain ⟨hop, hfit, hrecord, _⟩ := (engineInv_dBody hst).1 h.engine
  unfold rowDBody
  split
  · rename_i hlt
    exact h.moveLatches hb (by omega) ((engineInv_dBody (by exact hst)).2 ⟨hop, hfit, hrecord, hlt⟩)
  split
  · exact h.moveLatches hb (Nat.zero_le _) ((engineInv_dTrl rfl).2 ⟨hop, hfit, hrecord, Nat.zero_le _⟩)
  · exact h

theorem inv_rowDTrl (h : s.Inv) (hst : s.eng.st = .dTrl) : (rowDTrl s).Inv := by
  have hb : Busy s := busy_of_st hst (by decide)
  obtain ⟨hop, hfit, hrecord, _⟩ := (engineInv_dTrl hst).1 h.engine
  unfold rowDTrl
  split
  · rename_i hlt
    exact h.moveLatches hb (by omega) ((engineInv_dTrl (by exact hst)).2 ⟨hop, hfit, hrecord, hlt⟩)
  split
  · exact h.moveEngine hb rfl rfl (fun _ => rfl) h.index ((engineInv_dCmp rfl).2 ⟨hop, hfit, hrecord⟩)
  · exact h

theorem inv_rowDCmp (h : s.Inv) : (rowDCmp s).Inv := by
  unfold rowDCmp
  split
  · exact inv_complete h _ _
  · exact inv_complete h _ _

/-! ## The step -/

theorem inv_engineRow (h : s.Inv) : (engineRow s).Inv := by
  unfold engineRow
  split <;> rename_i hst
  · exact h
  · exact inv_complete h _ s.regs
  · exact inv_complete h _ s.regs
  · exact inv_rowFRun h hst
  · exact inv_rowFLoop h hst
  · exact inv_rowEChk h hst
  · exact inv_rowEHdr h hst
  · exact inv_rowEBody h hst
  · exact inv_rowETrl h hst
  · exact inv_rowDChk h hst
  · exact inv_rowDHdr h hst
  · exact inv_rowDLen h hst
  · exact inv_rowDBody h hst
  · exact inv_rowDTrl h hst
  · exact inv_rowDCmp h

end Invariant

/-- Settles O10: taking an entry off the schedule keeps the invariant, and so does each thing an entry can be. -/
theorem stepKeepsInvariant : Obligations.StepKeepsInvariant := by
  intro s t h hstep
  have hpop (rest : List Event) : State.Inv { s with schedule := rest } := h.hostView _ _ _ _ _
  obtain ⟨x, rest, _, ht⟩ | ⟨rest, _, rfl⟩ | ⟨rest, _, ht⟩ | ⟨rest, _, rfl⟩ | ⟨_, rfl⟩ := step_cases hstep
  · exact inv_runTxn (hpop rest) ht
  · exact inv_engineRow (hpop rest)
  · exact inv_runCommand (hpop rest) ht
  · exact inv_resetEvent (hpop rest)
  · exact inv_engineRow h

end Sys2Proof.Machine

/-! What the host port answers in REG space (R140, R141, R146), which fields STATUS shows (R34), what a running
command is shielded from (R57), and what its result depends on. -/

namespace Sys2Proof.Machine

/-! ## REG transactions, by alignment -/

theorem exec_regRead32_of_aligned {off : Word} (h : off.toNat % 4 = 0) (s : State) :
    exec (.regRead32 off) s = .next (regRead (regAt off) s) := congrArg _ (if_pos h)

theorem exec_regRead32_of_misaligned {off : Word} (h : off.toNat % 4 ≠ 0) (s : State) :
    exec (.regRead32 off) s = .next (refuse true s) := congrArg _ (if_neg h)

theorem exec_regWrite32_of_aligned {off : Word} (h : off.toNat % 4 = 0) (v : Word) (s : State) :
    exec (.regWrite32 off v) s = .next (regWrite (regAt off) v s) := congrArg _ (if_pos h)

theorem exec_regWrite32_of_misaligned {off : Word} (h : off.toNat % 4 ≠ 0) (v : Word) (s : State) :
    exec (.regWrite32 off v) s = .next (refuse false s) := congrArg _ (if_neg h)

/-- Outside the running command's write set a register reads as its value (R140). -/
theorem regRead_of_no_hazard {r : RegName} {s : State} (h : ¬ (Busy s ∧ r ∈ writeSet s.eng.op)) :
    regRead r s = answer (regValue s r) s := if_neg h

/-- Settles O11: the read answers `regValue` of the register `regAt` names, which each listed offset evaluates. -/
theorem registerReadReturnsItsValue : Obligations.RegisterReadReturnsItsValue := by
  intro s off haligned hfree
  refine ⟨regValue s (regAt off), ?_, ?_⟩
  · rw [exec_regRead32_of_aligned haligned, regRead_of_no_hazard hfree]
    rfl
  · refine ⟨?_, ?_, ?_, ?_, ?_, ?_, ?_, ?_, ?_, ?_, ?_, ?_, ?_, fun hge => by rw [regAt_of_ge off hge]; rfl⟩
    all_goals
      rintro rfl
      rfl

/-! ## Reserved offsets (R51, R81) -/

theorem regRead_reserved (s : State) : regRead .reserved s = answer 0#32 s :=
  regRead_of_no_hazard fun h => reserved_not_mem_writeSet _ h.2

theorem regWrite_reserved_of_idle {s : State} (h : s.eng.st = .idle) (v : Word) : regWrite .reserved v s = s :=
  if_neg (not_not.2 h)

theorem regWrite_reserved_of_busy {s : State} (h : Busy s) (v : Word) :
    regWrite .reserved v s = refuse false s := if_pos h

/-- A kind that names no instruction is refused, whatever the offset (R116, R146). -/
theorem runTxn_of_not_decoded {x : Txn} {e : Reject} (h : decodeTxn x = .error e) (s : State) :
    runTxn x s = .next (refuseKind x.kind s) := by
  simp only [runTxn, h]

theorem refuseKind_of_read {k : BitVec 4} (h : kindIsWrite k = false) (s : State) :
    refuseKind k s = refuse true s := by
  rw [refuseKind, h, Bool.not_false]

theorem refuseKind_of_write {k : BitVec 4} (h : kindIsWrite k = true) (s : State) :
    refuseKind k s = refuse false s := by
  rw [refuseKind, h, Bool.not_true]

/-- REG space has no access of size 1 or 2: its kind is refused. -/
theorem runTxn_subword_reg {k : BitVec 4} (hk : k ∈ [0x0#4, 0x1#4, 0x4#4, 0x5#4]) (off v : Word) (s : State) :
    runTxn ⟨k, off, v⟩ s = .next (refuseKind k s) := by
  have hdec : decodeTxn ⟨k, off, v⟩ = .error (.refusedKind k) := by
    obtain rfl | rfl | rfl | rfl : k = 0x0#4 ∨ k = 0x1#4 ∨ k = 0x4#4 ∨ k = 0x5#4 := by simpa using hk
    all_goals rfl
  exact runTxn_of_not_decoded hdec s

/-- Settles O19: an aligned access reaches the reserved register; a misaligned one and a refused kind never do. -/
theorem reservedOffsetsReadZeroIgnoreWrites : Obligations.ReservedOffsetsReadZeroIgnoreWrites := by
  intro s off v hge
  have hreg : regAt off = .reserved := regAt_of_ge off hge
  refine ⟨fun ha => ?_, fun ha hidle => ?_, fun ha hbusy => ?_, fun hmis => ⟨?_, ?_⟩, fun k hk => ?_, fun k hk => ?_⟩
  · rw [exec_regRead32_of_aligned ha, hreg, regRead_reserved]
    rfl
  · rw [exec_regWrite32_of_aligned ha, hreg, regWrite_reserved_of_idle hidle]
  · rw [exec_regWrite32_of_aligned ha, hreg, regWrite_reserved_of_busy hbusy]
    rfl
  · exact exec_regRead32_of_misaligned hmis s
  · exact exec_regWrite32_of_misaligned hmis v s
  · obtain rfl | rfl : k = 0x0#4 ∨ k = 0x4#4 := by simpa using hk
    all_goals
      rw [runTxn_subword_reg (by decide), refuseKind_of_read (by decide)]
      rfl
  · obtain rfl | rfl : k = 0x1#4 ∨ k = 0x5#4 := by simpa using hk
    all_goals
      rw [runTxn_subword_reg (by decide), refuseKind_of_write (by decide)]
      rfl

/-! ## The fields of STATUS (R34, R35, R37) -/

theorem statusWord_busy (s : State) : (statusWord s).getLsbD 0 = decide (Busy s) := by
  rw [statusWord_getLsbD]
  simp

theorem statusWord_done (s : State) : (statusWord s).getLsbD 1 = s.status.done := by
  rw [statusWord_getLsbD]
  simp

theorem statusWord_cmdOvr (s : State) : (statusWord s).getLsbD 8 = s.status.cmdOvr := by
  rw [statusWord_getLsbD, code_getLsbD_of_ge _ _ (by decide)]
  simp

theorem statusWord_busErr (s : State) : (statusWord s).getLsbD 9 = s.status.busErr := by
  rw [statusWord_getLsbD, code_getLsbD_of_ge _ _ (by decide)]
  simp

/-- Bits 6:4 are the code's low three bits: no other field has a bit there. -/
theorem statusWord_err (s : State) : (statusWord s).extractLsb' 4 3 = s.status.err.code.setWidth 3 := by
  apply BitVec.eq_of_getLsbD_eq
  intro i hi
  obtain rfl | rfl | rfl : i = 0 ∨ i = 1 ∨ i = 2 := by omega
  all_goals
    rw [BitVec.getLsbD_extractLsb', statusWord_getLsbD]
    simp

/-- R34: bits 3:2, 7 and 31:10 belong to no field. -/
theorem statusWord_reserved (s : State) (j : Nat) (h : j = 2 ∨ j = 3 ∨ j = 7 ∨ 10 ≤ j) :
    (statusWord s).getLsbD j = false := by
  have hcode : (decide (j < 32) && !decide (j < 4) && s.status.err.code.getLsbD (j - 4)) = false := by
    by_cases hj : j < 4
    · simp [hj]
    · rw [code_getLsbD_of_ge _ _ (by omega), Bool.and_false]
  rw [statusWord_getLsbD, hcode]
  simp [show j ≠ 0 by omega, show j ≠ 1 by omega, show j ≠ 8 by omega, show j ≠ 9 by omega]

/-- A field made of reserved bits reads 0. -/
theorem statusWord_reserved_field (s : State) (start len : Nat)
    (h : ∀ i, i < len → start + i = 2 ∨ start + i = 3 ∨ start + i = 7 ∨ 10 ≤ start + i) :
    (statusWord s).extractLsb' start len = 0#len := by
  apply BitVec.eq_of_getLsbD_eq
  intro i hi
  rw [BitVec.getLsbD_extractLsb', statusWord_reserved s _ (h i hi)]
  simp

/-- Settles O55: field by field. -/
theorem statusWordLayout : Obligations.StatusWordLayout := by
  intro s
  refine ⟨?_, statusWord_done s, statusWord_reserved_field s 2 2 (by omega), ?_,
    statusWord_reserved s 7 (by omega), statusWord_cmdOvr s, statusWord_busErr s,
    statusWord_reserved_field s 10 22 (by omega)⟩
  · rw [statusWord_busy, decide_eq_true_iff]
  · rw [statusWord_err]
    cases s.status.err <;> rfl

/-! ## Acceptance (R144) -/

/-- Every command word starts a command, a reserved one included (R152). -/
theorem firstState_ne_idle (w : Word) : firstState w ≠ .idle := by
  unfold firstState
  repeat' split
  all_goals decide

theorem busy_accept (w : Word) (s : State) : Busy (accept w s) := firstState_ne_idle w

theorem exec_regWrite32_cmd_of_idle {s : State} (h : s.eng.st = .idle) (w : Word) :
    exec (.regWrite32 0x00#32 w) s = .next (accept w s) := by
  rw [exec_regWrite32_of_aligned (by decide)]
  exact congrArg _ (if_neg (not_not.2 h))

/-- Settles O16: the accepted state is `accept w s`. -/
theorem commandAcceptanceLatchesOperands : Obligations.CommandAcceptanceLatchesOperands := by
  intro s w hidle
  refine ⟨accept w s, exec_regWrite32_cmd_of_idle hidle w, rfl, ?_, ?_⟩
  · rw [statusWord_busy]
    exact decide_eq_true (busy_accept w s)
  · exact statusWord_done _

/-! ## A running command is out of the host's reach (R57, R92, R277, R278) -/

/-- While busy, all that a transaction can change is the sticky bits, the returned value and the count of draws. -/
theorem runTxn_of_busy {x : Txn} {s t : State} (hb : Busy s) (h : runTxn x s = .next t) :
    ∃ o b v d, t = { s with
      status := { s.status with cmdOvr := o, busErr := b }, rdata := v, draws := d } := by
  obtain ⟨r, rfl⟩ | ⟨v, rfl⟩ | ⟨_, rfl⟩ | ⟨w, rfl⟩ | ⟨v, rfl⟩ | ⟨hi, _⟩ | ⟨hi, _⟩ := runTxn_cases h
  · exact ⟨_, _, _, _, rfl⟩
  · exact ⟨_, _, _, _, rfl⟩
  · exact ⟨_, _, _, _, rfl⟩
  · obtain ⟨_, e⟩ | ⟨hi, _⟩ := issue_cases w s
    · exact ⟨_, _, _, _, e⟩
    · exact absurd hb hi
  · exact ⟨_, _, _, _, rfl⟩
  · exact absurd hb hi
  · exact absurd hb hi

/-- Settles O49: none of what a busy transaction can change is listed. -/
theorem hostCannotDisturbARunningCommand : Obligations.HostCannotDisturbARunningCommand := by
  intro s t x hb h
  obtain ⟨o, b, v, d, rfl⟩ := runTxn_of_busy hb h
  exact ⟨rfl, rfl, rfl, rfl, rfl, fun a => memRead8_congr _ _ a rfl rfl, rfl, rfl⟩

/-! ## What a command's result depends on (R57, R248) -/

/-- Two states that agree on everything a command reads: BUF, the latched operands and the host's registers. -/
structure SameInputs (s s' : State) : Prop where
  buf : s'.buf = s.buf
  epoch : s'.epoch = s.epoch
  bufBytes : s'.bufBytes = s.bufBytes
  latchA : s'.eng.a = s.eng.a
  latchN : s'.eng.n = s.eng.n
  addr : s'.regs.addr = s.regs.addr
  count : s'.regs.count = s.regs.count
  len : s'.regs.len = s.regs.len
  tag : s'.regs.tag = s.regs.tag
  crcAcc : s'.regs.crcAcc = s.regs.crcAcc

/-- Registers `r` and `r'` left by runs from `k` and `k'`: each result-only register is the same in both, or kept in
both. -/
structure RegsAgree (k k' r r' : Regs) : Prop where
  addr : r'.addr = r.addr
  count : r'.count = r.count
  len : r'.len = r.len
  tag : r'.tag = r.tag
  crcAcc : r'.crcAcc = r.crcAcc
  rxCrc : r'.rxCrc = r.rxCrc ∨ (r'.rxCrc = k'.rxCrc ∧ r.rxCrc = k.rxCrc)
  calcCrc : r'.calcCrc = r.calcCrc ∨ (r'.calcCrc = k'.calcCrc ∧ r.calcCrc = k.calcCrc)
  consumed : r'.consumed = r.consumed ∨ (r'.consumed = k'.consumed ∧ r.consumed = k.consumed)

/-- States `t` and `t'` left by runs from `s` and `s'` show the same result. -/
structure SameResult (s s' t t' : State) : Prop where
  err : t'.status.err = t.status.err
  buf : t'.buf = t.buf
  regs : RegsAgree s.regs s'.regs t.regs t'.regs

section Congruence

variable {s s' : State}

/-- Two completions with the same code, after equal writes to BUF and agreeing writes to registers. -/
theorem sameResult_complete (c : ErrCode) {u u' : State} (hbuf : u'.buf = u.buf)
    (hregs : RegsAgree s.regs s'.regs u.regs u'.regs) : SameResult s s' (complete c u) (complete c u') :=
  ⟨rfl, hbuf, hregs⟩

namespace SameInputs

theorem regs (h : SameInputs s s') : RegsAgree s.regs s'.regs s.regs s'.regs :=
  ⟨h.addr, h.count, h.len, h.tag, h.crcAcc, .inr ⟨rfl, rfl⟩, .inr ⟨rfl, rfl⟩, .inr ⟨rfl, rfl⟩⟩

theorem engA_eq (h : SameInputs s s') : engA s' = engA s := congrArg BitVec.toNat h.latchA

theorem engN_eq (h : SameInputs s s') : engN s' = engN s := congrArg BitVec.toNat h.latchN

theorem memRead8_eq (h : SameInputs s s') (a : Nat) : memRead8 s' a = memRead8 s a :=
  memRead8_congr s s' a h.buf h.epoch

theorem memRead32_eq (h : SameInputs s s') (a : Nat) : memRead32 s' a = memRead32 s a :=
  memRead32_congr s' s a fun x _ _ => h.memRead8_eq x

theorem memBytes_eq (h : SameInputs s s') (a n : Nat) : memBytes s' a n = memBytes s a n :=
  memBytes_congr s' s a n fun x _ _ => h.memRead8_eq x

theorem declaredLen_eq (h : SameInputs s s') : declaredLen s' = declaredLen s := by
  simp only [declaredLen, h.engA_eq, h.memRead32_eq]

theorem recordTag_eq (h : SameInputs s s') : recordTag s' = recordTag s := by
  simp only [Machine.recordTag_eq, h.engA_eq, h.memRead32_eq]

theorem declaredCrc_eq (h : SameInputs s s') : declaredCrc s' = declaredCrc s := by
  simp only [declaredCrc, h.engA_eq, h.declaredLen_eq, h.memRead32_eq]

theorem expectedCrc_eq (h : SameInputs s s') : expectedCrc s' = expectedCrc s := by
  simp only [expectedCrc, h.engA_eq, h.declaredLen_eq, h.memBytes_eq]

theorem encodeCrc_writeHeader_eq (h : SameInputs s s') :
    encodeCrc (writeHeader s') = encodeCrc (writeHeader s) := by
  simp only [encodeCrc_writeHeader, h.tag, h.engA_eq, h.engN_eq, h.memBytes_eq]

theorem writeHeader_buf_eq (h : SameInputs s s') : (writeHeader s').buf = (writeHeader s).buf := by
  simp only [writeHeader_buf, h.buf, h.engA_eq, h.latchN, h.tag]

/-! ### The commands -/

/-- A completion that writes no register. -/
theorem complete (h : SameInputs s s') (c : ErrCode) :
    SameResult s s' (Machine.complete c s) (Machine.complete c s') := sameResult_complete c h.buf h.regs

/-- A failed ENCODE or DECODE writes CONSUMED and nothing else. -/
theorem failRecord (h : SameInputs s s') (c : ErrCode) :
    SameResult s s' (Machine.failRecord c s) (Machine.failRecord c s') :=
  sameResult_complete c h.buf { h.regs with consumed := .inl rfl }

theorem crcResetResult (h : SameInputs s s') :
    SameResult s s' (Machine.crcResetResult s) (Machine.crcResetResult s') :=
  sameResult_complete _ h.buf { h.regs with crcAcc := rfl }

theorem crcFeedResult (h : SameInputs s s') :
    SameResult s s' (Machine.crcFeedResult s) (Machine.crcFeedResult s') := by
  simp only [Machine.crcFeedResult, FitsBuf, h.bufBytes, h.engA_eq, h.engN_eq, h.memBytes_eq, h.crcAcc]
  split
  · exact sameResult_complete _ h.buf { h.regs with crcAcc := rfl }
  · exact h.complete _

theorem encodeResult (h : SameInputs s s') :
    SameResult s s' (Machine.encodeResult s) (Machine.encodeResult s') := by
  simp only [Machine.encodeResult, FitsBuf, h.bufBytes, h.engA_eq, h.engN_eq, h.encodeCrc_writeHeader_eq]
  split
  · refine sameResult_complete _ ?_ { h.regs with calcCrc := .inl rfl, consumed := .inl rfl }
    simp only [memWrite32_buf, h.writeHeader_buf_eq]
  · exact h.failRecord _

/-- The checks of DECODE come out alike, and each outcome writes registers from the record alone (R216). -/
theorem decodeResult (h : SameInputs s s') :
    SameResult s s' (Machine.decodeResult s) (Machine.decodeResult s') := by
  simp only [Machine.decodeResult, FitsBuf, h.bufBytes, h.engA_eq, h.engN_eq, h.declaredLen_eq, h.recordTag_eq,
    h.declaredCrc_eq, h.expectedCrc_eq]
  split
  · exact h.failRecord _
  split
  · exact h.failRecord _
  split
  · exact sameResult_complete _ h.buf { h.regs with len := rfl, tag := rfl, consumed := .inl rfl }
  split
  all_goals
    exact sameResult_complete _ h.buf
      { h.regs with len := rfl, tag := rfl, rxCrc := .inl rfl, calcCrc := .inl rfl, consumed := .inl rfl }

end SameInputs

end Congruence

/-- Settles O52: command by command. -/
theorem resultIsAFunctionOfItsInputs : Obligations.ResultIsAFunctionOfItsInputs := by
  intro s s' t t' i hi hbuf hepoch hbufBytes ha hn haddr hcount hlen htag hcrcAcc ht ht'
  have h : SameInputs s s' := ⟨hbuf, hepoch, hbufBytes, ha, hn, haddr, hcount, hlen, htag, hcrcAcc⟩
  have hresult : SameResult s s' t t' := by
    obtain rfl | rfl | rfl | rfl | rfl :
        i = .nop ∨ i = .crcReset ∨ i = .crcFeed ∨ i = .encodeRec ∨ i = .decodeRec := by simpa using hi
    all_goals cases ht; cases ht'
    · exact h.complete _
    · exact h.crcResetResult
    · exact h.crcFeedResult
    · exact h.encodeResult
    · exact h.decodeResult
  obtain ⟨herr, hbuf, haddr, hcount, hlen, htag, hcrcAcc, hrx, hcalc, hconsumed⟩ := hresult
  exact ⟨herr, hbuf, haddr, hcount, hlen, htag, hcrcAcc, hrx, hcalc, hconsumed⟩

end Sys2Proof.Machine

/-! What a successful ENCODE leaves in BUF (R110, R112, R201), and how the host reads it back (R84, R149). -/

namespace Sys2Proof.Machine

/-! ## BUF word reads -/

/-- A word read of an idle block, in BUF and aligned, answers the word (R149). -/
theorem exec_bufRead32_of_idle {s : State} {off : Word} (hidle : s.eng.st = .idle) (hin : WordInBuf s off) :
    exec (.bufRead32 off) s = .next (answer (memRead32 s off.toNat) s) :=
  congrArg _ ((if_neg (not_not.2 hin)).trans (if_neg (not_not.2 hidle)))

/-! ## The record that ENCODE writes -/

section Encode

variable {s : State}

/-- A record that fits in BUF is written whole: its header, then the checksum of its tag and payload (R201). -/
theorem encodeResult_of_fits (h : FitsBuf s (engA s) (12 + engN s)) :
    encodeResult s = complete .noErr
      { memWrite32 (engA s + 8 + engN s) (encodeCrc (writeHeader s)) (writeHeader s) with
        regs := { s.regs with
          calcCrc := encodeCrc (writeHeader s), consumed := BitVec.ofNat 32 (12 + engN s) } } := if_pos h

/-- Every byte of BUF after a successful ENCODE: checksum, tag, length, and elsewhere what stood there. -/
theorem memRead8_encodeResult (h : FitsBuf s (engA s) (12 + engN s)) (x : Nat) :
    memRead8 (encodeResult s) x =
      if engA s + 8 + engN s ≤ x ∧ x < engA s + 8 + engN s + 4 then
        lane (encodeCrc (writeHeader s)) (x - (engA s + 8 + engN s))
      else if engA s + 4 ≤ x ∧ x < engA s + 8 then lane s.regs.tag (x - (engA s + 4))
      else if engA s ≤ x ∧ x < engA s + 4 then lane s.eng.n (x - engA s)
      else memRead8 s x := by
  rw [encodeResult_of_fits h, ← memRead8_record]
  exact memRead8_congr _ _ x rfl rfl

theorem memRead8_encodeResult_length (h : FitsBuf s (engA s) (12 + engN s)) {k : Nat} (hk : k < 4) :
    memRead8 (encodeResult s) (engA s + k) = lane s.eng.n k := by
  rw [memRead8_encodeResult h, if_neg (by omega), if_neg (by omega), if_pos (by omega), Nat.add_sub_cancel_left]

theorem memRead8_encodeResult_tag (h : FitsBuf s (engA s) (12 + engN s)) {k : Nat} (hk : k < 4) :
    memRead8 (encodeResult s) (engA s + 4 + k) = lane s.regs.tag k := by
  rw [memRead8_encodeResult h, if_neg (by omega), if_pos (by omega), Nat.add_sub_cancel_left]

theorem memRead8_encodeResult_crc (h : FitsBuf s (engA s) (12 + engN s)) {k : Nat} (hk : k < 4) :
    memRead8 (encodeResult s) (engA s + 8 + engN s + k) = lane (encodeCrc (writeHeader s)) k := by
  rw [memRead8_encodeResult h, if_pos (by omega), Nat.add_sub_cancel_left]

/-- The payload is framed where it stands: ENCODE writes none of its bytes (R202). -/
theorem memBytes_encodeResult_payload (h : FitsBuf s (engA s) (12 + engN s)) :
    memBytes (encodeResult s) (engA s + 8) (engN s) = memBytes s (engA s + 8) (engN s) :=
  memBytes_congr _ s _ _ fun x hlo hhi => by
    rw [memRead8_encodeResult h, if_neg (by omega), if_neg (by omega), if_neg (by omega)]

theorem memBytes_encodeResult_tag (h : FitsBuf s (engA s) (12 + engN s)) :
    memBytes (encodeResult s) (engA s + 4) 4 = tagBytes s.regs.tag :=
  memBytes_of_lanes _ _ _ fun _ => memRead8_encodeResult_tag h

/-- A successful ENCODE leaves the block idle with TAG as it was, so the host's word read finds the tag (R84). -/
theorem exec_bufRead32_encodeResult_tag (h : FitsBuf s (engA s) (12 + engN s)) {off : Word}
    (hoff : off.toNat = engA s + 4) (haligned : Aligned4 off) :
    exec (.bufRead32 off) (encodeResult s) =
      .next { encodeResult s with rdata := some s.regs.tag } := by
  have hidle : (encodeResult s).eng.st = .idle := by rw [encodeResult_of_fits h]; rfl
  have hsize : (encodeResult s).bufBytes = s.bufBytes := by rw [encodeResult_of_fits h]; rfl
  have htag : memRead32 (encodeResult s) off.toNat = s.regs.tag := by
    rw [hoff]
    exact memRead32_of_lanes _ _ _ fun _ => memRead8_encodeResult_tag h
  rw [exec_bufRead32_of_idle hidle ⟨haligned, by omega⟩, htag]
  rfl

end Encode

/-- Settles O35: each field by the bytes ENCODE leaves there; the checksum is over the post-state's own bytes because
the tag field holds TAG and the payload is untouched. -/
theorem encodedRecordHasTheLayout : Obligations.EncodedRecordHasTheLayout := by
  intro s t hlegal hfits ht
  obtain rfl : encodeResult s = t := Host.Outcome.next.inj ht
  have h : FitsBuf s (engA s) (12 + engN s) := by omega
  refine ⟨?_, memBytes_encodeResult_tag h, memBytes_encodeResult_payload h, ?_, fun haligned => ?_⟩
  · exact memRead32_of_lanes _ _ _ fun _ => memRead8_encodeResult_length h
  · rw [memBytes_encodeResult_tag h, memBytes_encodeResult_payload h, ← encodeCrc_writeHeader]
    exact memRead32_of_lanes _ _ _ fun _ => memRead8_encodeResult_crc h
  · obtain ⟨_, _, hmax⟩ := (legalBufBytes_iff _).1 hlegal
    have hoff : (s.eng.a + 4#32).toNat = engA s + 4 :=
      BitVec.toNat_add_of_lt (show engA s + 4 < 2 ^ 32 by omega)
    exact exec_bufRead32_encodeResult_tag h hoff (by omega)

end Sys2Proof.Machine

/-! Which command words and transaction kinds the decoders accept (R113, R114, R116). -/

namespace Sys2Proof

/-! ## Command words -/

/-- A word decodes to an instruction exactly when it is that instruction's own command word (R113). -/
theorem decodeCmd_eq_ok_iff (w : Word) (i : Instr) : decodeCmd w = .ok i ↔ encode i = .cmd w := by
  constructor
  · intro h
    unfold decodeCmd at h
    split_ifs at h
    all_goals
      cases h
      simp only [encode, *]
  · intro h
    cases i <;> cases h <;> rfl

/-- The five command words are 0 to 4, so a word is reserved exactly when it is above them (R113, R114). -/
theorem decodeCmd_eq_reserved_iff (w : Word) :
    decodeCmd w = .error (.reservedCommand w) ↔ 5 ≤ w.toNat := by
  unfold decodeCmd
  split_ifs with h0 h1 h2 h3 h4
  case neg =>
    have habove : 5 ≤ w.toNat := by bv_omega
    exact iff_of_true rfl habove
  all_goals
    subst w
    exact iff_of_false nofun (by decide)

/-- R114 gives the same words by their fields: RSVD is not 0, or OP is 5 or more. -/
theorem five_le_toNat_iff_fields (w : Word) :
    5 ≤ w.toNat ↔ (w.extractLsb' 4 28 ≠ 0#28 ∨ 5 ≤ (w.extractLsb' 0 4).toNat) := by
  have hrsvd : (w.extractLsb' 4 28).toNat = w.toNat / 16 % 268435456 := by
    rw [BitVec.extractLsb'_toNat, Nat.shiftRight_eq_div_pow]
  have hop : (w.extractLsb' 0 4).toNat = w.toNat % 16 := by
    rw [BitVec.extractLsb'_toNat, Nat.shiftRight_zero]
  have hlt : w.toNat < 4294967296 := w.isLt
  rw [← BitVec.toNat_ne_iff_ne, hrsvd, hop, BitVec.toNat_zero]
  omega

/-- Settles O3: a word decodes only to the command whose encoding it is, and the rest are reserved. -/
theorem commandWordsAreExactlyTheTable : Obligations.CommandWordsAreExactlyTheTable := by
  intro w
  have hword (i : Instr) (v : Word) (hi : encode i = .cmd v) : decodeCmd w = .ok i ↔ w = v := by
    rw [decodeCmd_eq_ok_iff, hi, Fetched.cmd.injEq, eq_comm]
  exact ⟨(decodeCmd_eq_reserved_iff w).trans (five_le_toNat_iff_fields w),
    hword .nop _ rfl, hword .crcReset _ rfl, hword .crcFeed _ rfl, hword .encodeRec _ rfl,
    hword .decodeRec _ rfl⟩

/-! ## Transaction kinds -/

/-- The kinds of R116's table. -/
def tableKinds : List (BitVec 4) := [0x8#4, 0x9#4, 0x2#4, 0x3#4, 0xA#4, 0xB#4]

/-- A transaction is refused by kind exactly when its kind has no row in the table. -/
theorem decodeTxn_eq_refused_iff (x : Txn) :
    decodeTxn x = .error (.refusedKind x.kind) ↔ x.kind ∉ tableKinds := by
  unfold decodeTxn tableKinds
  split_ifs with h8 h9 h2 h3 hA hB
  case neg => exact iff_of_true rfl (by simp [*])
  all_goals
    rw [‹x.kind = _›]
    exact iff_of_false nofun (by decide)

/-- The kinds outside the table, by the S and Z fields of R115. -/
theorem not_mem_tableKinds_iff_fields : ∀ k : BitVec 4, k ∉ tableKinds ↔
    (kindSize k = 3#2 ∨ (kindIsBuf k = false ∧ kindSize k ≠ 2#2) ∨
      (kindIsBuf k = true ∧ kindSize k = 1#2)) := by decide

/-- The kinds outside the table, listed (R116). -/
theorem not_mem_tableKinds_iff_mem : ∀ k : BitVec 4, k ∉ tableKinds ↔
    k ∈ [0x0#4, 0x1#4, 0x4#4, 0x5#4, 0x6#4, 0x7#4, 0xC#4, 0xD#4, 0xE#4, 0xF#4] := by decide

/-- Settles O4: refusal is absence from the table, which the two kind lemmas read as fields and as a list; a kind of
the table has its own decoding. -/
theorem transactionKindsAreExactlyTheTable : Obligations.TransactionKindsAreExactlyTheTable := by
  rintro ⟨kind, off, wdata⟩
  refine ⟨(decodeTxn_eq_refused_iff _).trans (not_mem_tableKinds_iff_fields kind),
    (decodeTxn_eq_refused_iff _).trans (not_mem_tableKinds_iff_mem kind), ?_, ?_, ?_, ?_, ?_, ?_⟩
  all_goals rintro rfl
  · exact decode_kind_regRead32 off wdata
  · exact decode_kind_regWrite32 off wdata
  · exact decode_kind_bufRead8 off wdata
  · exact decode_kind_bufWrite8 off wdata
  · exact decode_kind_bufRead32 off wdata
  · exact decode_kind_bufWrite32 off wdata

end Sys2Proof

/-! What the host port does with a refused transaction (R146), a STATUS or RW register write (R142, R143) and a BUF
access (R147 to R150), and what NOP does (R151). -/

namespace Sys2Proof.Machine

/-! ## BUF transactions: in range and idle, or refused -/

section Guard

variable {s : State} {off : Word}

/-- The guard of every BUF transaction (R146, R278): out of range or busy, it is refused. -/
theorem guard_refused {p q : Prop} [Decidable p] [Decidable q] {a b : State} (h : q ∨ ¬ p) :
    (if ¬ p then a else if q then a else b) = a := by
  by_cases hp : p
  · rw [if_neg (not_not.2 hp), if_pos (h.resolve_right (not_not.2 hp))]
  · exact if_pos hp

theorem guard_passed {p q : Prop} [Decidable p] [Decidable q] {a b : State} (hp : p) (hq : ¬ q) :
    (if ¬ p then a else if q then a else b) = b := (if_neg (not_not.2 hp)).trans (if_neg hq)

theorem exec_bufRead8_of_idle (hidle : s.eng.st = .idle) (hin : ByteInBuf s off) :
    exec (.bufRead8 off) s = .next (answer ((memRead8 s off.toNat).setWidth 32) s) :=
  congrArg _ (guard_passed hin (not_not.2 hidle))

theorem exec_bufRead8_refused (h : Busy s ∨ ¬ ByteInBuf s off) :
    exec (.bufRead8 off) s = .next (refuse true s) := congrArg _ (guard_refused h)

theorem exec_bufWrite8_of_idle (hidle : s.eng.st = .idle) (hin : ByteInBuf s off) (v : Word) :
    exec (.bufWrite8 off v) s = .next (memWrite8 off.toNat (lowByte v) s) :=
  congrArg _ (guard_passed hin (not_not.2 hidle))

theorem exec_bufWrite8_refused (h : Busy s ∨ ¬ ByteInBuf s off) (v : Word) :
    exec (.bufWrite8 off v) s = .next (refuse false s) := congrArg _ (guard_refused h)

theorem exec_bufRead32_refused (h : Busy s ∨ ¬ WordInBuf s off) :
    exec (.bufRead32 off) s = .next (refuse true s) := congrArg _ (guard_refused h)

theorem exec_bufWrite32_of_idle (hidle : s.eng.st = .idle) (hin : WordInBuf s off) (v : Word) :
    exec (.bufWrite32 off v) s = .next (memWrite32 off.toNat v s) :=
  congrArg _ (guard_passed hin (not_not.2 hidle))

theorem exec_bufWrite32_refused (h : Busy s ∨ ¬ WordInBuf s off) (v : Word) :
    exec (.bufWrite32 off v) s = .next (refuse false s) := congrArg _ (guard_refused h)

/-- R146's words for a refused word access: misaligned, or not all of it inside BUF. -/
theorem not_wordInBuf_iff : ¬ WordInBuf s off ↔ (off.toNat % 4 ≠ 0 ∨ s.bufBytes < off.toNat + 4) := by
  rw [not_and_or, Nat.not_le]

end Guard

/-! ## Refused transactions (R146) -/

/-- A read that its instruction refuses is refused as its kind is. -/
theorem runTxn_of_read_refused {k : BitVec 4} {off v : Word} {i : Instr} {s : State}
    (hdec : decodeTxn ⟨k, off, v⟩ = .ok i) (hread : kindIsWrite k = false)
    (h : exec i s = .next (refuse true s)) : runTxn ⟨k, off, v⟩ s = .next (refuseKind k s) := by
  simp only [runTxn, hdec, h, refuseKind_of_read hread]

theorem runTxn_of_write_refused {k : BitVec 4} {off v : Word} {i : Instr} {s : State}
    (hdec : decodeTxn ⟨k, off, v⟩ = .ok i) (hwrite : kindIsWrite k = true)
    (h : exec i s = .next (refuse false s)) : runTxn ⟨k, off, v⟩ s = .next (refuseKind k s) := by
  simp only [runTxn, hdec, h, refuseKind_of_write hwrite]

/-- Each ground of R146 leads to the refusal of the transaction's kind. -/
theorem runTxn_refused {s : State} {x : Txn}
    (h : x.kind ∉ tableKinds ∨ (x.kind ∈ [0x8#4, 0x9#4] ∧ ¬ Aligned4 x.off) ∨
      (x.kind ∈ [0x2#4, 0x3#4] ∧ ¬ ByteInBuf s x.off) ∨ (x.kind ∈ [0xA#4, 0xB#4] ∧ ¬ WordInBuf s x.off)) :
    runTxn x s = .next (refuseKind x.kind s) := by
  obtain ⟨k, off, v⟩ := x
  simp only [List.mem_pair] at h
  obtain hkind | ⟨rfl | rfl, hoff⟩ | ⟨rfl | rfl, hoff⟩ | ⟨rfl | rfl, hoff⟩ := h
  · exact runTxn_of_not_decoded ((decodeTxn_eq_refused_iff _).2 hkind) s
  · exact runTxn_of_read_refused (decode_kind_regRead32 off v) (by decide) (exec_regRead32_of_misaligned hoff s)
  · exact runTxn_of_write_refused (decode_kind_regWrite32 off v) (by decide) (exec_regWrite32_of_misaligned hoff v s)
  · exact runTxn_of_read_refused (decode_kind_bufRead8 off v) (by decide) (exec_bufRead8_refused (.inr hoff))
  · exact runTxn_of_write_refused (decode_kind_bufWrite8 off v) (by decide) (exec_bufWrite8_refused (.inr hoff) v)
  · exact runTxn_of_read_refused (decode_kind_bufRead32 off v) (by decide) (exec_bufRead32_refused (.inr hoff))
  · exact runTxn_of_write_refused (decode_kind_bufWrite32 off v) (by decide) (exec_bufWrite32_refused (.inr hoff) v)

/-- Settles O13: the transaction is refused by `runTxn_refused`, and `refuseKind_eq` is the whole effect of that. -/
theorem refusedTransactionOnlySetsBusErr : Obligations.RefusedTransactionOnlySetsBusErr := by
  intro s x h
  rw [← Nat.not_lt, ← not_wordInBuf_iff] at h
  rw [runTxn_refused h, refuseKind_eq]

/-! ## STATUS writes (R143) -/

theorem exec_regWrite32_status (v : Word) (s : State) :
    exec (.regWrite32 0x04#32 v) s = .next (statusW1c v s) := exec_regWrite32_of_aligned (by decide) v s

/-- Write one to clear, as a choice by the written bit. -/
theorem statusW1c_eq_ite (v : Word) (s : State) :
    statusW1c v s = { s with status := { s.status with
      cmdOvr := if v.getLsbD 8 then false else s.status.cmdOvr
      busErr := if v.getLsbD 9 then false else s.status.busErr } } := by
  have clear (x b : Bool) : (x && !b) = if b then false else x := by cases b <;> simp
  rw [statusW1c, clear, clear]

/-- Only bits 8 and 9 of STATUS show a sticky bit (R34). -/
theorem statusWord_statusW1c_getLsbD (v : Word) (s : State) {j : Nat} (h8 : j ≠ 8) (h9 : j ≠ 9) :
    (statusWord (statusW1c v s)).getLsbD j = (statusWord s).getLsbD j := by
  rw [statusWord_getLsbD, statusWord_getLsbD]
  simp only [decide_eq_false h8, decide_eq_false h9, Bool.and_false]
  rfl

/-- Settles O17: the write is `statusW1c`, in any engine state. -/
theorem statusWriteClearsStickyBits : Obligations.StatusWriteClearsStickyBits := fun s v =>
  ⟨statusW1c v s, exec_regWrite32_status v s, statusW1c_eq_ite v s,
    fun _ h8 h9 => statusWord_statusW1c_getLsbD v s h8 h9⟩

/-! ## RW register writes (R142) -/

theorem regWrite_of_idle {s : State} {r : RegName} (hidle : s.eng.st = .idle) (hcmd : r ≠ .cmd)
    (hstatus : r ≠ .status) (v : Word) : regWrite r v s = storeReg r v s := by
  cases r
  case cmd => exact absurd rfl hcmd
  case status => exact absurd rfl hstatus
  all_goals exact if_neg (not_not.2 hidle)

/-- While idle an aligned write to any offset but those of CMD and STATUS stores to the register there (R141). -/
theorem exec_regWrite32_of_idle {s : State} {off : Word} (hidle : s.eng.st = .idle) (ha : Aligned4 off)
    (hcmd : off ≠ 0x00#32) (hstatus : off ≠ 0x04#32) (v : Word) :
    exec (.regWrite32 off v) s = .next (storeReg (regAt off) v s) := by
  rw [exec_regWrite32_of_aligned ha,
    regWrite_of_idle hidle (mt (regAt_eq_cmd off).1 hcmd) (mt (regAt_eq_status off).1 hstatus)]

/-- While idle no read is a hazard: an aligned one answers the register's value (R140). -/
theorem exec_regRead32_of_idle {s : State} {off : Word} (hidle : s.eng.st = .idle) (ha : Aligned4 off) :
    exec (.regRead32 off) s = .next (answer (regValue s (regAt off)) s) := by
  rw [exec_regRead32_of_aligned ha, regRead_of_no_hazard fun h => h.1 hidle]

/-- Settles O18: each write stores to the register its offset names; the state after it is still idle, so the view of
TAG or of CRC_ACC reads from the value just stored. -/
theorem registerWriteStoresAllBits : Obligations.RegisterWriteStoresAllBits := by
  intro s v hidle
  have hwrite (off : Word) (ha : Aligned4 off) (hcmd : off ≠ 0x00#32) (hstatus : off ≠ 0x04#32) :
      exec (.regWrite32 off v) s = .next (storeReg (regAt off) v s) :=
    exec_regWrite32_of_idle hidle ha hcmd hstatus v
  refine ⟨hwrite 0x08#32 (by decide) (by decide) (by decide), hwrite 0x0C#32 (by decide) (by decide) (by decide),
    hwrite 0x10#32 (by decide) (by decide) (by decide),
    ⟨_, hwrite 0x14#32 (by decide) (by decide) (by decide), rfl, ?_⟩,
    ⟨_, hwrite 0x28#32 (by decide) (by decide) (by decide), rfl, ?_⟩⟩
  · exact exec_regRead32_of_idle hidle (by decide)
  · exact exec_regRead32_of_idle hidle (by decide)

/-! ## BUF reads and writes (R147 to R150) -/

/-- A word write leaves lane k at offset k of the word. -/
theorem memRead8_memWrite32_lane (s : State) (a : Nat) (v : Word) {k : Nat} (hk : k < 4) :
    memRead8 (memWrite32 a v s) (a + k) = lane v k := by
  rw [memWrite32, memRead8_memWriteBytes_bytesBE32, if_pos (by omega), Nat.add_sub_cancel_left]

theorem memRead8_memWrite32_outside (s : State) {a x : Nat} (v : Word) (h : x < a ∨ a + 4 ≤ x) :
    memRead8 (memWrite32 a v s) x = memRead8 s x := by
  rw [memWrite32, memRead8_memWriteBytes_bytesBE32, if_neg (by omega)]

/-- Settles O22: a read in range answers the bytes, by value `be32_toNat`; any other is refused. -/
theorem bufferReadsReturnTheBytes : Obligations.BufferReadsReturnTheBytes := by
  intro s off
  refine ⟨fun hidle hin => ⟨_, exec_bufRead8_of_idle hidle hin, ?_⟩, fun h => ?_,
    fun hidle ha hin => ⟨_, exec_bufRead32_of_idle hidle ⟨ha, hin⟩, ?_⟩, fun h => ?_⟩
  · exact BitVec.toNat_setWidth_of_le (by decide)
  · exact exec_bufRead8_refused (h.imp_right Nat.not_lt.2)
  · exact be32_toNat _ _ _ _
  · exact exec_bufRead32_refused (h.imp_right not_wordInBuf_iff.2)

/-- Settles O23: a write in range stores the low byte, or the four lanes in order; any other is refused. -/
theorem bufferWritesStoreTheBytes : Obligations.BufferWritesStoreTheBytes := by
  intro s off v
  refine ⟨fun hidle hin => ⟨_, exec_bufWrite8_of_idle hidle hin v, rfl, ?_, fun x hx => ?_⟩, fun h => ?_,
    fun hidle ha hin => ⟨_, exec_bufWrite32_of_idle hidle ⟨ha, hin⟩ v, rfl, ?_, ?_, ?_, ?_, fun x hx => ?_⟩,
    fun h => ?_⟩
  · rw [memRead8_memWrite8, if_pos rfl, lowByte]
  · rw [memRead8_memWrite8, if_neg hx]
  · exact exec_bufWrite8_refused (h.imp_right Nat.not_lt.2) v
  · exact memRead8_memWrite32_lane s off.toNat v (k := 0) (by decide)
  · exact memRead8_memWrite32_lane s off.toNat v (k := 1) (by decide)
  · exact memRead8_memWrite32_lane s off.toNat v (k := 2) (by decide)
  · exact memRead8_memWrite32_lane s off.toNat v (k := 3) (by decide)
  · exact memRead8_memWrite32_outside s v hx
  · exact exec_bufWrite32_refused (h.imp_right not_wordInBuf_iff.2) v

/-! ## NOP (R151) -/

theorem exec_nop (s : State) : exec .nop s = .next (complete .noErr s) := rfl

theorem engineRow_xNop {s : State} (h : s.eng.st = .xNop) : engineRow s = complete .noErr s := by
  simp only [engineRow, h]

/-- Settles O25: both the instruction and the row are `complete .noErr`, whose record update is the statement's. -/
theorem nopOnlyReportsCompletion : Obligations.NopOnlyReportsCompletion := fun s =>
  ⟨exec_nop s, fun h => engineRow_xNop h⟩

end Sys2Proof.Machine

/-! TAG_FLAGS as a function of the bits of TAG (R160 to R166). -/

namespace Sys2Proof.Machine

/-- The mask 0x20 of R10 picks the bit of position 5. -/
theorem bit5_eq_getLsbD (b : Byte) : bit5 b = b.getLsbD 5 := by
  rw [bit5, show 0x20#8 = BitVec.twoPow 8 5 from rfl, BitVec.and_twoPow]
  cases b.getLsbD 5 <;> rfl

theorem bit5_lane (v : Word) (k : Nat) : bit5 (lane v k) = v.getLsbD (24 - 8 * k + 5) := by
  rw [bit5_eq_getLsbD, lane_getLsbD _ _ _ (by decide)]

theorem alpha_iff (b : Byte) : alpha b = true ↔
    (0x41 ≤ b.toNat ∧ b.toNat ≤ 0x5A) ∨ (0x61 ≤ b.toNat ∧ b.toNat ≤ 0x7A) := by
  simp only [alpha, Bool.or_eq_true, Bool.and_eq_true, decide_eq_true_iff]

theorem flagAlpha_lanes_iff (v : Word) :
    flagAlpha (lane v 0) (lane v 1) (lane v 2) (lane v 3) = true ↔ ∀ k, k < 4 → alpha (lane v k) = true := by
  simp only [flagAlpha, Bool.and_eq_true, Nat.forall_lt_succ_right, Nat.not_lt_zero, false_imp_iff, forall_const,
    true_and]

/-- Every bit of the TAG_FLAGS word (R166). -/
theorem tagFlags_getLsbD (t0 t1 t2 t3 : Byte) (j : Nat) :
    (tagFlags t0 t1 t2 t3).getLsbD j =
      ((flagCritical t0 && decide (j = 0)) || (flagPublic t1 && decide (j = 1)) ||
        (flagReservedValid t2 && decide (j = 2)) || (flagSafeToCopy t3 && decide (j = 3)) ||
        (flagValid t2 && decide (j = 4)) || (flagAlpha t0 t1 t2 t3 && decide (j = 5))) := by
  simp only [tagFlags, BitVec.getLsbD_or]
  rw [flagAt_getLsbD _ _ _ (by decide), flagAt_getLsbD _ _ _ (by decide), flagAt_getLsbD _ _ _ (by decide),
    flagAt_getLsbD _ _ _ (by decide), flagAt_getLsbD _ _ _ (by decide), flagAt_getLsbD _ _ _ (by decide)]

/-- The six flags fill the bits below 6 (R166). -/
theorem tagFlags_getLsbD_of_ge (t0 t1 t2 t3 : Byte) {j : Nat} (h : 6 ≤ j) :
    (tagFlags t0 t1 t2 t3).getLsbD j = false := by
  have h0 : j ≠ 0 ∧ j ≠ 1 ∧ j ≠ 2 ∧ j ≠ 3 ∧ j ≠ 4 ∧ j ≠ 5 := by omega
  simp [tagFlags_getLsbD, h0]

/-- Settles O54: bit j of the word is the flag of position j, which reads bit 5 of its lane of TAG, or, for
ALPHA, all four lanes. -/
theorem tagFlagsReadTheTagBits : Obligations.TagFlagsReadTheTagBits := by
  intro tag
  refine ⟨?criticalBit, ?publicBit, ?reservedValidBit, ?safeToCopyBit, ?validBit, ?alphaBit,
    fun j hj => tagFlags_getLsbD_of_ge _ _ _ _ hj⟩
  case criticalBit => rw [tagFlagsOf, tagFlags_getLsbD]; simp [flagCritical, bit5_lane]
  case publicBit => rw [tagFlagsOf, tagFlags_getLsbD]; simp [flagPublic, bit5_lane]
  case reservedValidBit => rw [tagFlagsOf, tagFlags_getLsbD]; simp [flagReservedValid, bit5_lane]
  case safeToCopyBit => rw [tagFlagsOf, tagFlags_getLsbD]; simp [flagSafeToCopy, bit5_lane]
  case validBit => rw [tagFlagsOf, tagFlags_getLsbD]; simp [flagValid, flagReservedValid, bit5_lane]
  case alphaBit =>
    have hbit : (tagFlagsOf tag).getLsbD 5 = flagAlpha (lane tag 0) (lane tag 1) (lane tag 2) (lane tag 3) := by
      rw [tagFlagsOf, tagFlags_getLsbD]; simp
    rw [hbit, flagAlpha_lanes_iff]
    exact forall₂_congr fun k _ => alpha_iff (lane tag k)

end Sys2Proof.Machine

/-! The CRC commands' completions (R185, R186, R188) and the table form of the byte update (R184). -/

namespace Sys2Proof.Machine

/-! ## CRC_RESET (R185) -/

/-- Settles O27: the completion's record update is the statement's, and CRC_RESULT is the complement of all ones. -/
theorem crcResetCompletes : Obligations.CrcResetCompletes := fun s =>
  ⟨crcResetResult s, rfl, rfl, BitVec.xor_self⟩

/-! ## CRC_FEED (R186, R188) -/

theorem exec_crcFeed (s : State) : exec .crcFeed s = .next (crcFeedResult s) := rfl

section Feed
variable {s : State}

theorem crcFeedResult_of_fits (h : FitsBuf s (engA s) (engN s)) :
    crcFeedResult s = complete .noErr { s with regs := { s.regs with
      crcAcc := crcFold s.regs.crcAcc (memBytes s (engA s) (engN s)) } } := if_pos h

theorem crcFeedResult_of_range (h : ¬ FitsBuf s (engA s) (engN s)) : crcFeedResult s = complete .range s := if_neg h

theorem crcFeedResult_regs_of_no_bytes (h : engN s = 0) : (crcFeedResult s).regs = s.regs := by
  by_cases hfit : FitsBuf s (engA s) (engN s)
  · rw [crcFeedResult_of_fits hfit, h]
    rfl
  · rw [crcFeedResult_of_range hfit, complete_regs]

end Feed

/-- Settles O28: the bound check decides between the two completions. -/
theorem crcFeedFoldsItsRange : Obligations.CrcFeedFoldsItsRange := by
  intro s
  refine ⟨fun hfit => ?fits, fun hrange => ?range, fun hn t ht => ?noBytes⟩
  case fits => rw [exec_crcFeed, crcFeedResult_of_fits hfit, complete]
  case range => rw [exec_crcFeed, crcFeedResult_of_range (not_le.2 hrange), complete]
  case noBytes =>
    obtain rfl : crcFeedResult s = t := Host.Outcome.next.inj ht
    exact crcFeedResult_regs_of_no_bytes hn

/-- The fold over a concatenation is the fold of the second part from where the first part ends (R182). -/
theorem crcFold_append (c : Word) (p q : List Byte) : crcFold c (p ++ q) = crcFold (crcFold c p) q := by
  induction p generalizing c with
  | nil => rfl
  | cons b p ih => exact ih (crcByte c b)

/-- The bytes of a range depend on the buffer and on the reset's draws only (R14, R271). -/
theorem memBytes_eq_of_same_buf {s t : State} (hbuf : t.buf = s.buf) (hepoch : t.epoch = s.epoch) (a n : Nat) :
    memBytes t a n = memBytes s a n :=
  memBytes_congr t s a n fun x _ _ => memRead8_congr s t x hbuf hepoch

/-- A feed that fits leaves the fold over its range in CRC_ACC; the bytes may be read in any state with the same BUF. -/
theorem crcAcc_of_exec_crcFeed {s w t : State} {c : Word} {a n : Nat} (ht : exec .crcFeed w = .next t)
    (hbuf : w.buf = s.buf) (hepoch : w.epoch = s.epoch) (hacc : w.regs.crcAcc = c) (ha : engA w = a)
    (hn : engN w = n) (hfit : FitsBuf w a n) : t.regs.crcAcc = crcFold c (memBytes s a n) := by
  subst hacc ha hn
  obtain rfl : crcFeedResult w = t := Host.Outcome.next.inj ht
  rw [crcFeedResult_of_fits hfit, complete_regs, memBytes_eq_of_same_buf hbuf hepoch]

/-- Settles O29: each feed leaves a fold over its own range, and the whole range is the two parts in turn. -/
theorem crcFeedsCompose : Obligations.CrcFeedsCompose := by
  intro s u t1 t2 t n1 n2 hfit hn ht1 hbuf hepoch hbufBytes hacc ha hn2 ht2 ht
  have hfirst : t1.regs.crcAcc = crcFold s.regs.crcAcc (memBytes s (engA s) n1.toNat) :=
    crcAcc_of_exec_crcFeed ht1 rfl rfl rfl rfl rfl (Nat.le_of_add_right_le hfit)
  have hsecond : t2.regs.crcAcc = crcFold t1.regs.crcAcc (memBytes s (engA s + n1.toNat) n2.toNat) :=
    crcAcc_of_exec_crcFeed ht2 hbuf hepoch hacc ha (congrArg BitVec.toNat hn2) (by rwa [FitsBuf, hbufBytes])
  have hwhole : t.regs.crcAcc = crcFold s.regs.crcAcc (memBytes s (engA s) (n1.toNat + n2.toNat)) :=
    crcAcc_of_exec_crcFeed ht rfl rfl rfl rfl hn (by rwa [FitsBuf, ← Nat.add_assoc])
  have hparts : t2.regs.crcAcc = crcFold s.regs.crcAcc
      (memBytes s (engA s) n1.toNat ++ memBytes s (engA s + n1.toNat) n2.toNat) := by
    rw [hsecond, hfirst, crcFold_append]
  refine ⟨?_, fun hfresh => ?_⟩
  · rw [hparts, hwhole, memBytes_append]
  · rw [regValue, hparts, hfresh, crc32]

/-! ## The table form of the byte update (R184) -/

/-- Shifts of a word whose low bits are clear meet no feedback: no bit that leaves the register is set. -/
theorem crcBit_iterate_of_low_bits_clear (n : Nat) (x : Word) (h : ∀ i, i < n → x.getLsbD i = false) :
    crcBit^[n] x = x >>> n := by
  induction n generalizing x with
  | zero => rfl
  | succ n ih =>
    have hclear : ∀ i, i < n → (x >>> 1).getLsbD i = false := fun i hi => by
      rw [BitVec.getLsbD_ushiftRight]
      exact h (1 + i) (by omega)
    rw [Function.iterate_succ_apply, crcBit_of_even x (h 0 (Nat.succ_pos n)), ih _ hclear, ← BitVec.shiftRight_add,
      Nat.add_comm]

theorem crcBits8_eq_iterate (x : Word) : crcBits8 x = crcBit^[8] x := rfl

/-- A word is its upper 24 bits in place XOR its low byte. -/
theorem eq_high_xor_lowByte (x : Word) : x = (x >>> 8) <<< 8 ^^^ (lowByte x).setWidth 32 := by
  apply BitVec.eq_of_getLsbD_eq
  intro i hi
  by_cases h : i < 8
  · simp [lowByte, h, hi]
  · simp [lowByte, h, hi, Nat.add_sub_cancel' (Nat.le_of_not_lt h)]

/-- The eight shifts move the upper 24 bits down as they are. -/
theorem crcBits8_high_bytes (x : Word) : crcBits8 ((x >>> 8) <<< 8) = x >>> 8 := by
  rw [crcBits8_eq_iterate, crcBit_iterate_of_low_bits_clear 8 _ fun i hi => by simp [hi]]
  apply BitVec.eq_of_getLsbD_eq
  intro i hi
  simpa using BitVec.lt_of_getLsbD (x := x) (i := 8 + i)

/-- Only the low byte meets the polynomial (R184). -/
theorem crcBits8_eq_shift_xor_table (x : Word) : crcBits8 x = (x >>> 8) ^^^ crcTable (lowByte x) := by
  have hlow : crcTable (lowByte x) = crcBits8 ((lowByte x).setWidth 32) := by
    rw [crcTable, crcByte, BitVec.zero_xor]
  calc crcBits8 x = crcBits8 ((x >>> 8) <<< 8 ^^^ (lowByte x).setWidth 32) :=
      congrArg crcBits8 (eq_high_xor_lowByte x)
    _ = (x >>> 8) ^^^ crcTable (lowByte x) := by rw [crcBits8_xor, crcBits8_high_bytes, hlow]

/-- The message byte does not reach above the low byte. -/
theorem xor_byte_shift_eight (c : Word) (b : Byte) : (c ^^^ b.setWidth 32) >>> 8 = c >>> 8 := by
  have hb : b.setWidth 32 >>> 8 = (0#32 : Word) := BitVec.eq_of_toNat_eq (by simp; omega)
  rw [BitVec.ushiftRight_xor_distrib, hb, BitVec.xor_zero]

theorem lowByte_and_mask (x : Word) : lowByte (x &&& 0x000000FF#32) = lowByte x := by
  have hmask : (0x000000FF#32).extractLsb' 0 8 = BitVec.allOnes 8 := rfl
  rw [lowByte, BitVec.extractLsb'_and, hmask, BitVec.and_allOnes, lowByte]

theorem crcByte_eq_shift_xor_table (c : Word) (b : Byte) :
    crcByte c b = (c >>> 8) ^^^ crcTable (lowByte (c ^^^ b.setWidth 32)) := by
  rw [crcByte, crcBits8_eq_shift_xor_table, xor_byte_shift_eight]

theorem crcByteByTable_eq_crcByte (c : Word) (b : Byte) : crcByteByTable c b = crcByte c b := by
  rw [crcByteByTable, lowByte_and_mask, crcByte_eq_shift_xor_table]

/-- Settles O30: the two forms by linearity of the shifts, the listed entries by evaluation. -/
theorem tableFormAgreesWithBitSerial : Obligations.TableFormAgreesWithBitSerial := by
  refine ⟨fun c b => ⟨crcByte_eq_shift_xor_table c b, crcByteByTable_eq_crcByte c b⟩, ?_⟩
  decide

end Sys2Proof.Machine

/-! ENCODE: what its completion writes (R201 to R203), and that its reference machine (R205) reaches that completion. -/

namespace Sys2Proof.Machine

/-! ## The completion (R202, R203) -/

section Completion

variable {s : State}

theorem exec_encodeRec (s : State) : exec .encodeRec s = .next (encodeResult s) := rfl

theorem encodeResult_of_range (h : ¬ FitsBuf s (engA s) (12 + engN s)) : encodeResult s = failRecord .range s :=
  if_neg h

theorem encodeResult_calcCrc (h : FitsBuf s (engA s) (12 + engN s)) :
    (encodeResult s).regs.calcCrc = encodeCrc (writeHeader s) := by
  rw [encodeResult_of_fits h]
  rfl

/-- Outside the header and the checksum ENCODE writes nothing (R202). -/
theorem memRead8_encodeResult_outside (h : FitsBuf s (engA s) (12 + engN s)) {x : Nat}
    (hheader : ¬ (engA s ≤ x ∧ x < engA s + 8))
    (htrailer : ¬ (engA s + 8 + engN s ≤ x ∧ x < engA s + 12 + engN s)) :
    memRead8 (encodeResult s) x = memRead8 s x := by
  rw [memRead8_encodeResult h, if_neg (by omega), if_neg (by omega), if_neg (by omega)]

end Completion

/-- Settles O33: the completion's record update is the statement's but for BUF, which is read field by field. -/
theorem encodeSuccessWritesExactlyTheRecord : Obligations.EncodeSuccessWritesExactlyTheRecord := by
  intro s hfits
  have h : FitsBuf s (engA s) (12 + engN s) := by omega
  refine ⟨encodeResult s, exec_encodeRec s, ?registers, fun k hk => memRead8_encodeResult_length h hk,
    fun k hk => memRead8_encodeResult_tag h hk, fun k hk => ?checksum,
    fun x hheader htrailer => memRead8_encodeResult_outside h hheader htrailer⟩
  case registers =>
    rw [encodeResult_of_fits h, encodeCrc_writeHeader, complete]
    simp
  case checksum =>
    rw [encodeResult_calcCrc h]
    exact memRead8_encodeResult_crc h hk

/-- Settles O34: the bound check fails; a length of 2^32 - 12 or more passes the end of the largest legal BUF. -/
theorem encodeOutOfRangeWritesOnlyConsumed : Obligations.EncodeOutOfRangeWritesOnlyConsumed := by
  intro s
  refine ⟨fun hrange => ?_, fun hlegal hlen => ?_⟩
  · rw [exec_encodeRec, encodeResult_of_range (by omega)]
    rfl
  · obtain ⟨_, _, hmax⟩ := (legalBufBytes_iff _).1 hlegal
    omega

/-! ## Rows in turn -/

theorem engineRows_add (j k : Nat) (s : State) : engineRows (j + k) s = engineRows k (engineRows j s) := by
  induction j generalizing s with
  | zero => rw [Nat.zero_add]; rfl
  | succ j ih => rw [Nat.succ_add]; exact ih (engineRow s)

theorem engineRows_succ (k : Nat) (s : State) : engineRows (k + 1) s = engineRow (engineRows k s) :=
  engineRows_add k 1 s

theorem engineRows_of_idle {s : State} (h : s.eng.st = .idle) (k : Nat) : engineRows k s = s := by
  have hrow : engineRow s = s := by simp only [engineRow, h]
  induction k with
  | zero => rfl
  | succ k ih => rw [engineRows_succ, ih, hrow]

/-- A machine that is busy has been busy at every row before: an idle engine takes none (R257). -/
theorem busy_engineRows_of_le {s : State} {j k : Nat} (h : Busy (engineRows k s)) (hjk : j ≤ k) :
    Busy (engineRows j s) := fun hidle => h <| by
  rw [← Nat.add_sub_cancel' hjk, engineRows_add, engineRows_of_idle hidle, hidle]

/-- A machine that is still busy after `k` rows and completes in the next has run to its completion. -/
theorem completes_after {s t u : State} (k : Nat) (hu : engineRows k s = u) (hbusy : Busy u)
    (ht : SameButLatches t (engineRow u)) :
    ∃ k, 1 ≤ k ∧ (∀ j, j < k → (engineRows j s).eng.st ≠ .idle) ∧ SameButLatches t (engineRows k s) := by
  subst hu
  exact ⟨k + 1, Nat.succ_pos k, fun j hj => busy_engineRows_of_le hbusy (Nat.le_of_lt_succ hj),
    by rwa [engineRows_succ]⟩

/-! ## The phases of R205 -/

/-- The engine in a state of the ENCODE machine, at byte `i` of it. -/
def atByte (st : EngSt) (i : Nat) (acc : Word) (s : State) : State :=
  { s with eng := { s.eng with st := st, i := i, acc := acc } }

section Phases

variable {s : State}

theorem engineRow_eChk_of_fits (hst : s.eng.st = .eChk) (h : FitsBuf s (engA s) (12 + engN s)) :
    engineRow s = atByte .eHdr 0 0xFFFFFFFF#32 s := by
  simp only [engineRow, hst, rowEChk, not_true_eq_false, h, if_false, atByte]

theorem engineRow_eChk_of_range (hst : s.eng.st = .eChk) (h : ¬ FitsBuf s (engA s) (12 + engN s)) :
    engineRow s = failRecord .range s := by
  simp only [engineRow, hst, rowEChk, h, not_false_eq_true, if_true]

/-- E_HDR, the length: four bytes are written and none is folded. -/
theorem engineRows_eHdr_length (c : Word) (s : State) :
    engineRows 4 (atByte .eHdr 0 c s) = atByte .eHdr 4 c (memWrite32 (engA s) s.eng.n s) := by
  simp [engineRows, engineRow, rowEHdr, atByte, memWrite32, bytesBE32, memWriteBytes_cons, memWrite8]

/-- E_HDR, the tag: four bytes are written and folded, and the fifth row leaves the state. -/
theorem engineRows_eHdr_tag (c : Word) (s : State) :
    engineRows 5 (atByte .eHdr 4 c s) =
      atByte .eBody 0 (crcFold c (tagBytes s.regs.tag)) (memWriteBytes (engA s + 4) (tagBytes s.regs.tag) s) := by
  simp [engineRows, engineRow, rowEHdr, atByte, tagBytes, memWriteBytes_cons, memWrite8]

/-- E_HDR: the header is written and its tag folded. -/
theorem engineRows_eHdr (c : Word) (s : State) :
    engineRows (4 + 5) (atByte .eHdr 0 c s) = atByte .eBody 0 (crcFold c (tagBytes s.regs.tag)) (writeHeader s) := by
  rw [engineRows_add, engineRows_eHdr_length, engineRows_eHdr_tag]
  rfl

/-- E_BODY up to byte `m` of the payload. -/
theorem engineRows_eBody_bytes (c : Word) (s : State) {m : Nat} (hm : m ≤ engN s) :
    engineRows m (atByte .eBody 0 c s) = atByte .eBody m (crcFold c (memBytes s (engA s + 8) m)) s := by
  induction m with
  | zero => rfl
  | succ m ih =>
    rw [engineRows_succ, ih (Nat.le_of_succ_le hm), memBytes_succ, crcFold_snoc]
    exact if_pos (show m < engN s from hm)

/-- E_BODY: the payload is folded, and the row that leaves the state complements the fold (R183). -/
theorem engineRows_eBody (c : Word) (s : State) :
    engineRows (engN s + 1) (atByte .eBody 0 c s) =
      atByte .eTrl 0 (crcFold c (memBytes s (engA s + 8) (engN s)) ^^^ 0xFFFFFFFF#32) s := by
  rw [engineRows_succ, engineRows_eBody_bytes c s le_rfl]
  exact (if_neg (Nat.lt_irrefl _)).trans (if_pos rfl)

/-- E_TRL: the four bytes of the checksum are written. -/
theorem engineRows_eTrl (c : Word) (s : State) :
    engineRows 4 (atByte .eTrl 0 c s) = atByte .eTrl 4 c (memWrite32 (engA s + 8 + engN s) c s) := by
  simp [engineRows, engineRow, rowETrl, atByte, memWrite32, bytesBE32, memWriteBytes_cons, memWrite8]

/-- E_TRL: the fifth row reports (R205). -/
theorem engineRow_eTrl_last (c : Word) (s : State) :
    engineRow (atByte .eTrl 4 c s) = complete .noErr { atByte .eTrl 4 c s with
      regs := { s.regs with calcCrc := c, consumed := BitVec.ofNat 32 (12 + engN s) } } := by
  simp [engineRow, rowETrl, atByte]

/-- The machine's running fold, tag first, is the checksum ENCODE computes (R182, R201). -/
theorem encodeCrc_eq_crcFold (s : State) :
    encodeCrc s = crcFold (crcFold 0xFFFFFFFF#32 (tagBytes s.regs.tag)) (memBytes s (engA s + 8) (engN s))
      ^^^ 0xFFFFFFFF#32 := by
  rw [encodeCrc, crc32, crcFold_append]

/-- Every row but the completing one: the check, the header, the payload and the trailer. -/
theorem engineRows_encode_of_fits (hst : s.eng.st = .eChk) (h : FitsBuf s (engA s) (12 + engN s)) :
    engineRows (1 + (4 + 5) + (engN s + 1) + 4) s =
      atByte .eTrl 4 (encodeCrc (writeHeader s))
        (memWrite32 (engA s + 8 + engN s) (encodeCrc (writeHeader s)) (writeHeader s)) := by
  have hcheck : engineRows 1 s = atByte .eHdr 0 0xFFFFFFFF#32 s := engineRow_eChk_of_fits hst h
  have hbody (c : Word) : engineRows (engN s + 1) (atByte .eBody 0 c (writeHeader s)) =
      atByte .eTrl 0 (crcFold c (memBytes (writeHeader s) (engA s + 8) (engN s)) ^^^ 0xFFFFFFFF#32) (writeHeader s) :=
    engineRows_eBody c (writeHeader s)
  have hcrc : crcFold (crcFold 0xFFFFFFFF#32 (tagBytes s.regs.tag))
      (memBytes (writeHeader s) (engA s + 8) (engN s)) ^^^ 0xFFFFFFFF#32 = encodeCrc (writeHeader s) :=
    (encodeCrc_eq_crcFold (writeHeader s)).symm
  calc engineRows (1 + (4 + 5) + (engN s + 1) + 4) s
      = engineRows 4 (engineRows (engN s + 1) (engineRows (4 + 5) (engineRows 1 s))) := by
        rw [engineRows_add _ 4, engineRows_add _ (engN s + 1), engineRows_add 1 (4 + 5)]
    _ = engineRows 4 (atByte .eTrl 0 (encodeCrc (writeHeader s)) (writeHeader s)) := by
        rw [hcheck, engineRows_eHdr, hbody, hcrc]
    _ = _ := engineRows_eTrl _ _

end Phases

/-- Settles O43: an ENCODE that does not fit completes in its first row; any other runs through the phases of R205. -/
theorem encodeMachineReachesItsCompletion : Obligations.EncodeMachineReachesItsCompletion := by
  intro s t hst ht
  obtain rfl : encodeResult s = t := Host.Outcome.next.inj ht
  by_cases h : FitsBuf s (engA s) (12 + engN s)
  · refine completes_after _ (engineRows_encode_of_fits hst h) nofun ?_
    rw [encodeResult_of_fits h, engineRow_eTrl_last]
    rfl
  · refine completes_after 0 rfl (busy_of_st hst nofun) ?_
    rw [encodeResult_of_range h, engineRows, engineRow_eChk_of_range hst h]
    rfl

end Sys2Proof.Machine

/-! What one row of a reference machine can do (R187, R205, R226), which bytes of BUF it can change, and that the rest
of a command, run as one step, gives the same completion after any of its rows. -/

namespace Sys2Proof.Machine

/-! ## What a row can do -/

/-- The engine in another state, with other working latches; the operands it latched at acceptance stay. -/
def State.moveEngine (s : State) (st : EngSt) (i : Nat) (acc len rx : Word) : State :=
  { s with eng := { s.eng with st := st, i := i, acc := acc, len := len, rx := rx } }

/-- The bytes that ENCODE writes: the record without its payload (R110, R202). -/
def InRecordFrame (s : State) (x : Nat) : Prop :=
  (engA s ≤ x ∧ x < engA s + 8) ∨ (engA s + 8 + engN s ≤ x ∧ x < engA s + 12 + engN s)

/-- Everything a row can do: complete, or move the engine on, and on the way write a byte of ENCODE's frame or result
registers of DECODE, each after the checks that the row's state has behind it. -/
inductive RowEffect (s : State) : State → Prop
  | completes (c : ErrCode) (r : Regs) : RowEffect s (complete c { s with regs := r })
  | moves (st : EngSt) (i : Nat) (acc len rx : Word) : RowEffect s (s.moveEngine st i acc len rx)
  | writesByte (x : Nat) (b : Byte) (i : Nat) (acc : Word) (hop : s.eng.op = 0x3#32)
      (hfit : FitsBuf s (engA s) (12 + engN s)) (hx : InRecordFrame s x) :
      RowEffect s ((memWrite8 x b s).moveEngine s.eng.st i acc s.eng.len s.eng.rx)
  | writesHeaderRegs (lenReg tag : Word) (st : EngSt) (i : Nat) (acc : Word) (hop : s.eng.op = 0x4#32)
      (hfit : FitsBuf s (engA s) (engN s)) (hmin : 12 ≤ engN s) :
      RowEffect s (State.moveEngine { s with regs := { s.regs with len := lenReg, tag := tag } }
        st i acc s.eng.len s.eng.rx)
  | writesCrcRegs (rxCrc calcCrc : Word) (st : EngSt) (hst : s.eng.st = .dTrl) (hop : s.eng.op = 0x4#32)
      (hfit : FitsBuf s (engA s) (engN s)) (hrecord : 12 + s.eng.len.toNat ≤ engN s) :
      RowEffect s (State.moveEngine { s with regs := { s.regs with rxCrc := rxCrc, calcCrc := calcCrc } }
        st s.eng.i s.eng.acc s.eng.len s.eng.rx)

section Rows

variable {s : State}

theorem RowEffect.stays : RowEffect s s := .moves s.eng.st s.eng.i s.eng.acc s.eng.len s.eng.rx

theorem rowFRun_effect : RowEffect s (rowFRun s) := by
  unfold rowFRun
  split
  · exact .completes _ _
  split
  · split
    · exact .completes _ s.regs
    · exact .moves _ _ _ _ _
  · exact .stays

theorem rowFLoop_effect : RowEffect s (rowFLoop s) := by
  unfold rowFLoop
  split
  · exact .moves _ _ _ _ _
  split
  · exact .completes _ _
  · exact .stays

theorem rowEChk_effect : RowEffect s (rowEChk s) := by
  unfold rowEChk
  split
  · exact .completes _ _
  · exact .moves _ _ _ _ _

theorem rowEHdr_effect (h : s.Inv) (hst : s.eng.st = .eHdr) : RowEffect s (rowEHdr s) := by
  obtain ⟨hop, hfit, _⟩ := (engineInv_eHdr hst).1 h.engine
  unfold rowEHdr
  split
  · exact .writesByte _ _ _ _ hop hfit (.inl (by omega))
  split
  · exact .writesByte _ _ _ _ hop hfit (.inl (by omega))
  split
  · exact .moves _ _ _ _ _
  · exact .stays

theorem rowEBody_effect : RowEffect s (rowEBody s) := by
  unfold rowEBody
  split
  · exact .moves _ _ _ _ _
  split
  · exact .moves _ _ _ _ _
  · exact .stays

theorem rowETrl_effect (h : s.Inv) (hst : s.eng.st = .eTrl) : RowEffect s (rowETrl s) := by
  obtain ⟨hop, hfit, _⟩ := (engineInv_eTrl hst).1 h.engine
  unfold rowETrl
  split
  · exact .writesByte _ _ _ _ hop hfit (.inr (by omega))
  split
  · exact .completes _ _
  · exact .stays

theorem rowDChk_effect : RowEffect s (rowDChk s) := by
  unfold rowDChk
  split
  · exact .completes _ _
  split
  · exact .completes _ _
  · exact .moves _ _ _ _ _

theorem rowDHdr_effect (h : s.Inv) (hst : s.eng.st = .dHdr) : RowEffect s (rowDHdr s) := by
  obtain ⟨hop, hfit, hmin, _⟩ := (engineInv_dHdr hst).1 h.engine
  unfold rowDHdr
  split
  · exact .moves _ _ _ _ _
  split
  · exact .writesHeaderRegs s.regs.len _ _ _ _ hop hfit hmin
  split
  · exact .writesHeaderRegs _ s.regs.tag _ _ _ hop hfit hmin
  · exact .stays

theorem rowDLen_effect : RowEffect s (rowDLen s) := by
  unfold rowDLen
  split
  · exact .completes _ _
  · exact .moves _ _ _ _ _

theorem rowDBody_effect : RowEffect s (rowDBody s) := by
  unfold rowDBody
  split
  · exact .moves _ _ _ _ _
  split
  · exact .moves _ _ _ _ _
  · exact .stays

theorem rowDTrl_effect (h : s.Inv) (hst : s.eng.st = .dTrl) : RowEffect s (rowDTrl s) := by
  obtain ⟨hop, hfit, hrecord, _⟩ := (engineInv_dTrl hst).1 h.engine
  unfold rowDTrl
  split
  · exact .moves _ _ _ _ _
  split
  · exact .writesCrcRegs _ _ _ hst hop hfit hrecord
  · exact .stays

theorem rowDCmp_effect : RowEffect s (rowDCmp s) := by
  unfold rowDCmp
  split
  · exact .completes _ _
  · exact .completes _ _

theorem engineRow_effect (h : s.Inv) : RowEffect s (engineRow s) := by
  unfold engineRow
  split <;> rename_i hst
  · exact .stays
  · exact .completes _ s.regs
  · exact .completes _ s.regs
  · exact rowFRun_effect
  · exact rowFLoop_effect
  · exact rowEChk_effect
  · exact rowEHdr_effect h hst
  · exact rowEBody_effect
  · exact rowETrl_effect h hst
  · exact rowDChk_effect
  · exact rowDHdr_effect h hst
  · exact rowDLen_effect
  · exact rowDBody_effect
  · exact rowDTrl_effect h hst
  · exact rowDCmp_effect

end Rows

/-- Settles O48: of the effects a row can have, only ENCODE's byte write changes what a byte reads as. -/
theorem engineRowWritesOnlyTheRecord : Obligations.EngineRowWritesOnlyTheRecord := by
  intro s x h hchanged
  have hrow : RowEffect s (engineRow s) := engineRow_effect h
  have hkept {u : State} (hbuf : u.buf = s.buf) (hepoch : u.epoch = s.epoch) : ¬ memRead8 u x ≠ memRead8 s x :=
    not_not.2 (memRead8_congr s u x hbuf hepoch)
  generalize engineRow s = u at hrow hchanged
  cases hrow with
  | completes | moves | writesHeaderRegs | writesCrcRegs => exact absurd hchanged (hkept rfl rfl)
  | writesByte y b i acc hop hfit hy =>
    have hread : memRead8 ((memWrite8 y b s).moveEngine s.eng.st i acc s.eng.len s.eng.rx) x =
        if x = y then b else memRead8 s x := memRead8_memWrite8 s y x b
    obtain rfl : x = y := by
      by_contra hne
      exact hchanged (hread.trans (if_neg hne))
    exact ⟨hop, by unfold InRecordFrame at hy; omega, hy⟩

/-! ## A merged run does not depend on the engine's place in its machine (R54) -/

section Moved

variable {s : State} {st : EngSt} {i : Nat} {acc len rx : Word}

@[simp] theorem moveEngine_regs : (s.moveEngine st i acc len rx).regs = s.regs := rfl
@[simp] theorem moveEngine_bufBytes : (s.moveEngine st i acc len rx).bufBytes = s.bufBytes := rfl
@[simp] theorem moveEngine_engA : engA (s.moveEngine st i acc len rx) = engA s := rfl
@[simp] theorem moveEngine_engN : engN (s.moveEngine st i acc len rx) = engN s := rfl
@[simp] theorem declaredLen_moveEngine : declaredLen (s.moveEngine st i acc len rx) = declaredLen s := rfl
@[simp] theorem recordTag_moveEngine : recordTag (s.moveEngine st i acc len rx) = recordTag s := rfl
@[simp] theorem declaredCrc_moveEngine : declaredCrc (s.moveEngine st i acc len rx) = declaredCrc s := rfl

@[simp] theorem memBytes_moveEngine (a n : Nat) : memBytes (s.moveEngine st i acc len rx) a n = memBytes s a n :=
  memBytes_eq_of_same_buf (s := s) (t := s.moveEngine st i acc len rx) rfl rfl a n

@[simp] theorem expectedCrc_moveEngine : expectedCrc (s.moveEngine st i acc len rx) = expectedCrc s := by
  simp [expectedCrc]

@[simp] theorem encodeCrc_writeHeader_moveEngine :
    encodeCrc (writeHeader (s.moveEngine st i acc len rx)) = encodeCrc (writeHeader s) := by
  simp [encodeCrc_writeHeader]

theorem crcFeedResult_moveEngine :
    crcFeedResult (s.moveEngine st i acc len rx) =
      (crcFeedResult s).moveEngine (crcFeedResult s).eng.st i acc len rx := by
  simp only [crcFeedResult, FitsBuf, moveEngine_bufBytes, moveEngine_engA, moveEngine_engN, moveEngine_regs,
    memBytes_moveEngine]
  split <;> rfl

theorem encodeResult_moveEngine :
    encodeResult (s.moveEngine st i acc len rx) =
      (encodeResult s).moveEngine (encodeResult s).eng.st i acc len rx := by
  simp only [encodeResult, FitsBuf, moveEngine_bufBytes, moveEngine_engA, moveEngine_engN,
    encodeCrc_writeHeader_moveEngine]
  split <;> rfl

theorem decodeResult_moveEngine :
    decodeResult (s.moveEngine st i acc len rx) =
      (decodeResult s).moveEngine (decodeResult s).eng.st i acc len rx := by
  simp only [decodeResult, FitsBuf, moveEngine_bufBytes, moveEngine_engA, moveEngine_engN, moveEngine_regs,
    declaredLen_moveEngine, recordTag_moveEngine, declaredCrc_moveEngine, expectedCrc_moveEngine]
  split_ifs <;> rfl

end Moved

/-! ## The merged run of a command -/

section MergedRun

variable {s : State}

theorem runCommand_of_decodes {i : Instr} (hb : Busy s) (hd : decodeCmd s.eng.op = .ok i) :
    runCommand s = exec i s := by
  simp only [runCommand, if_pos hb, hd]

theorem runCommand_of_reserved {r : Reject} (hb : Busy s) (hd : decodeCmd s.eng.op = .error r) :
    runCommand s = .next (badCommand s) := by
  simp only [runCommand, if_pos hb, hd]

theorem runCommand_encodeRec (hb : Busy s) (hop : s.eng.op = 0x3#32) : runCommand s = .next (encodeResult s) :=
  runCommand_of_decodes (i := .encodeRec) hb (by rw [hop]; rfl)

theorem runCommand_decodeRec (hb : Busy s) (hop : s.eng.op = 0x4#32) : runCommand s = .next (decodeResult s) :=
  runCommand_of_decodes (i := .decodeRec) hb (by rw [hop]; rfl)

/-- The engine's state within its command and its working latches pass through a merged run unread. -/
theorem runCommand_moveEngine {t : State} {st : EngSt} (hb : Busy s) (hst : st ≠ .idle) (i : Nat) (acc len rx : Word)
    (h : runCommand s = .next t) :
    runCommand (s.moveEngine st i acc len rx) = .next (t.moveEngine t.eng.st i acc len rx) := by
  have hrun (c : Instr) (hd : decodeCmd s.eng.op = .ok c) :
      runCommand (s.moveEngine st i acc len rx) = exec c (s.moveEngine st i acc len rx) :=
    runCommand_of_decodes hst hd
  obtain ⟨hidle, _⟩ | ⟨_, hcommand⟩ := runCommand_cases h
  · exact absurd hb hidle
  obtain ⟨hop, rfl⟩ | ⟨hop, rfl⟩ | ⟨hop, rfl⟩ | ⟨hop, rfl⟩ | ⟨hop, rfl⟩ | ⟨⟨_, hd⟩, rfl⟩ := hcommand
  · exact hrun .nop (by rw [hop]; rfl)
  · exact hrun .crcReset (by rw [hop]; rfl)
  · exact (hrun .crcFeed (by rw [hop]; rfl)).trans (congrArg _ crcFeedResult_moveEngine)
  · exact (hrun .encodeRec (by rw [hop]; rfl)).trans (congrArg _ encodeResult_moveEngine)
  · exact (hrun .decodeRec (by rw [hop]; rfl)).trans (congrArg _ decodeResult_moveEngine)
  · exact runCommand_of_reserved hst hd

end MergedRun

/-! ## States from which a merged run gives the same completion -/

theorem sameButLatches_iff (s t : State) :
    SameButLatches s t ↔ ∃ i acc len rx, t = s.moveEngine s.eng.st i acc len rx :=
  ⟨fun h => ⟨_, _, _, _, h⟩, fun ⟨_, _, _, _, h⟩ => by subst h; rfl⟩

theorem SameButLatches.refl (s : State) : SameButLatches s s := rfl

theorem SameButLatches.trans {s t u : State} (hst : SameButLatches s t) (htu : SameButLatches t u) :
    SameButLatches s u := by
  obtain ⟨_, _, _, _, rfl⟩ := (sameButLatches_iff s t).1 hst
  obtain ⟨_, _, _, _, rfl⟩ := (sameButLatches_iff _ u).1 htu
  exact (sameButLatches_iff _ _).2 ⟨_, _, _, _, rfl⟩

/-- A merged run from `s'` gives what a merged run from `s` gives, but for the working latches. -/
def CompletesAs (s s' : State) : Prop :=
  ∀ t, runCommand s = .next t → ∃ u, runCommand s' = .next u ∧ SameButLatches t u

theorem CompletesAs.refl (s : State) : CompletesAs s s := fun t h => ⟨t, h, .refl t⟩

theorem CompletesAs.trans {s s' s'' : State} (h : CompletesAs s s') (h' : CompletesAs s' s'') :
    CompletesAs s s'' := by
  intro t ht
  obtain ⟨u, hu, htu⟩ := h t ht
  obtain ⟨v, hv, huv⟩ := h' u hu
  exact ⟨v, hv, htu.trans huv⟩

theorem CompletesAs.moveEngine {s : State} {st : EngSt} (hb : Busy s) (hst : st ≠ .idle) (i : Nat)
    (acc len rx : Word) : CompletesAs s (s.moveEngine st i acc len rx) := by
  intro t ht
  exact ⟨_, runCommand_moveEngine hb hst i acc len rx ht, (sameButLatches_iff _ _).2 ⟨i, acc, len, rx, rfl⟩⟩

/-- The same from a state whose merged run gives the very same completion. -/
theorem CompletesAs.moveEngine_of_run_eq {s s' : State} {st : EngSt} (h : runCommand s' = runCommand s)
    (hb : Busy s') (hst : st ≠ .idle) (i : Nat) (acc len rx : Word) :
    CompletesAs s (s'.moveEngine st i acc len rx) := fun t ht =>
  CompletesAs.moveEngine hb hst i acc len rx t (h.trans ht)

/-! ## A byte of ENCODE's frame is written again (R205) -/

/-- After the same bytes are written, two buffers can differ at an offset only if they did and it is none of those. -/
theorem Memory.get_putBytes_congr (bs : List Byte) (a x : Nat) (m m' : Memory)
    (h : ¬ (a ≤ x ∧ x < a + bs.length) → m.get x = m'.get x) :
    (m.putBytes a bs).get x = (m'.putBytes a bs).get x := by
  induction bs generalizing a m m' with
  | nil => exact h (by simp)
  | cons b bs ih =>
    refine ih (a + 1) _ _ fun hx => ?_
    rw [Memory.get_put, Memory.get_put]
    split
    · rfl
    · exact h (by rw [List.length_cons]; omega)

theorem Memory.wf_putBytes (bs : List Byte) (a : Nat) (m : Memory) (h : m.wf = true) :
    (m.putBytes a bs).wf = true := memWriteBytes_wf bs { State.reset with buf := m } a h

/-- A length, a tag and a checksum overwrite what stood there: canonical lists that hold the same bytes are equal. -/
theorem Memory.putRecord_put {m : Memory} (hwf : m.wf = true) {a p x : Nat} (v tag c : Word)
    (hx : (a ≤ x ∧ x < a + 8) ∨ (p ≤ x ∧ x < p + 4)) (b : Byte) :
    (((m.put x b).putBytes a (bytesBE32 v)).putBytes (a + 4) (tagBytes tag)).putBytes p (bytesBE32 c) =
      ((m.putBytes a (bytesBE32 v)).putBytes (a + 4) (tagBytes tag)).putBytes p (bytesBE32 c) := by
  have hrecord (m : Memory) (h : m.wf = true) :
      (((m.putBytes a (bytesBE32 v)).putBytes (a + 4) (tagBytes tag)).putBytes p (bytesBE32 c)).wf = true :=
    Memory.wf_putBytes _ _ _ (Memory.wf_putBytes _ _ _ (Memory.wf_putBytes _ _ _ h))
  refine Memory.ext _ _ (hrecord _ (Memory.wf_put m x b hwf)) (hrecord m hwf) fun y => ?_
  refine Memory.get_putBytes_congr _ _ y _ _ fun htrailer => ?_
  refine Memory.get_putBytes_congr _ _ y _ _ fun htag => ?_
  refine Memory.get_putBytes_congr _ _ y _ _ fun hlength => ?_
  rw [bytesBE32_length] at htrailer hlength
  rw [tagBytes_length] at htag
  rw [Memory.get_put, if_neg (by omega)]

section Frame

variable {s : State} {x : Nat}

theorem record_memWrite8 (hwf : s.buf.wf = true) (hx : InRecordFrame s x) (b : Byte) (c : Word) :
    memWrite32 (engA s + 8 + engN s) c (writeHeader (memWrite8 x b s)) =
      memWrite32 (engA s + 8 + engN s) c (writeHeader s) := by
  have hx' : (engA s ≤ x ∧ x < engA s + 8) ∨ (engA s + 8 + engN s ≤ x ∧ x < engA s + 8 + engN s + 4) := by
    unfold InRecordFrame at hx
    omega
  simp only [writeHeader, memWrite32, memWriteBytes, memWrite8, engA]
  rw [Memory.putRecord_put hwf _ _ _ hx']

/-- The payload lies outside the frame (R205). -/
theorem encodeCrc_writeHeader_memWrite8 (hx : InRecordFrame s x) (b : Byte) :
    encodeCrc (writeHeader (memWrite8 x b s)) = encodeCrc (writeHeader s) := by
  have hpayload : memBytes (memWrite8 x b s) (engA s + 8) (engN s) = memBytes s (engA s + 8) (engN s) :=
    memBytes_congr _ s _ _ fun y hlo hhi => by
      rw [memRead8_memWrite8, if_neg]
      rintro rfl
      unfold InRecordFrame at hx
      omega
  rw [encodeCrc_writeHeader, encodeCrc_writeHeader, ← hpayload]
  rfl

theorem encodeResult_memWrite8 (hwf : s.buf.wf = true) (hfit : FitsBuf s (engA s) (12 + engN s))
    (hx : InRecordFrame s x) (b : Byte) : encodeResult (memWrite8 x b s) = encodeResult s := by
  have ha : engA (memWrite8 x b s) = engA s := rfl
  have hn : engN (memWrite8 x b s) = engN s := rfl
  rw [encodeResult_of_fits hfit, encodeResult_of_fits (s := memWrite8 x b s) hfit]
  simp only [ha, hn, memWrite8_regs, encodeCrc_writeHeader_memWrite8 hx, record_memWrite8 hwf hx]

theorem runCommand_memWrite8 (h : s.Inv) (hb : Busy s) (hop : s.eng.op = 0x3#32)
    (hfit : FitsBuf s (engA s) (12 + engN s)) (hx : InRecordFrame s x) (b : Byte) :
    runCommand (memWrite8 x b s) = runCommand s := by
  rw [runCommand_encodeRec hb hop, runCommand_encodeRec (s := memWrite8 x b s) hb hop,
    encodeResult_memWrite8 h.canonical hfit hx]

end Frame

/-! ## DECODE writes its result registers again (R226) -/

section Decode

variable {s : State} {r : Regs}

theorem expectedCrc_setRegs : expectedCrc { s with regs := r } = expectedCrc s := by
  have hbytes (a n : Nat) : memBytes { s with regs := r } a n = memBytes s a n :=
    memBytes_eq_of_same_buf (s := s) (t := { s with regs := r }) rfl rfl a n
  simp only [expectedCrc, hbytes]
  rfl

theorem declaredLen_setRegs : declaredLen { s with regs := r } = declaredLen s := rfl

/-- LEN and TAG of a record long enough for a header are written whatever comes of the rest (R216). -/
theorem decodeResult_setHeaderRegs (hfit : FitsBuf s (engA s) (engN s)) (hmin : 12 ≤ engN s) (len tag : Word) :
    decodeResult { s with regs := { s.regs with len := len, tag := tag } } = decodeResult s := by
  simp only [decodeResult, expectedCrc_setRegs]
  rw [if_neg (not_not.2 hfit), if_neg (not_not.2 hfit), if_neg (not_lt.2 hmin), if_neg (not_lt.2 hmin)]
  rfl

/-- RX_CRC and CALC_CRC of a whole record are written whether they agree or not (R216). -/
theorem decodeResult_setCrcRegs (hfit : FitsBuf s (engA s) (engN s))
    (hrecord : 12 + (declaredLen s).toNat ≤ engN s) (rxCrc calcCrc : Word) :
    decodeResult { s with regs := { s.regs with rxCrc := rxCrc, calcCrc := calcCrc } } = decodeResult s := by
  have hmin : 12 ≤ engN s := by omega
  simp only [decodeResult, declaredLen_setRegs, expectedCrc_setRegs]
  rw [if_neg (not_not.2 hfit), if_neg (not_not.2 hfit), if_neg (not_lt.2 hmin), if_neg (not_lt.2 hmin),
    if_neg (not_lt.2 hrecord), if_neg (not_lt.2 hrecord)]
  rfl

theorem runCommand_setHeaderRegs (hb : Busy s) (hop : s.eng.op = 0x4#32) (hfit : FitsBuf s (engA s) (engN s))
    (hmin : 12 ≤ engN s) (len tag : Word) :
    runCommand { s with regs := { s.regs with len := len, tag := tag } } = runCommand s := by
  rw [runCommand_decodeRec hb hop, ← decodeResult_setHeaderRegs hfit hmin len tag]
  exact runCommand_decodeRec hb hop

theorem runCommand_setCrcRegs (hb : Busy s) (hop : s.eng.op = 0x4#32) (hfit : FitsBuf s (engA s) (engN s))
    (hrecord : 12 + (declaredLen s).toNat ≤ engN s) (rxCrc calcCrc : Word) :
    runCommand { s with regs := { s.regs with rxCrc := rxCrc, calcCrc := calcCrc } } = runCommand s := by
  rw [runCommand_decodeRec hb hop, ← decodeResult_setCrcRegs hfit hrecord rxCrc calcCrc]
  exact runCommand_decodeRec hb hop

end Decode

/-! ## The declared length that DECODE holds (R226) -/

/-- What the engine has read of the declared length: the bytes so far, then all of it. -/
def HoldsDeclaredLen (s : State) : Prop :=
  match s.eng.st with
  | .dHdr => ∀ k, k < 4 → k < s.eng.i → memRead8 s (engA s + k) = lane s.eng.len k
  | .dLen | .dBody | .dTrl => declaredLen s = s.eng.len
  | _ => True

section DeclaredLen

variable {s : State}

theorem holdsDeclaredLen_dHdr (hst : s.eng.st = .dHdr) : HoldsDeclaredLen s ↔
    ∀ k, k < 4 → k < s.eng.i → memRead8 s (engA s + k) = lane s.eng.len k := by
  simp only [HoldsDeclaredLen, hst]

theorem holdsDeclaredLen_dLen (hst : s.eng.st = .dLen) : HoldsDeclaredLen s ↔ declaredLen s = s.eng.len := by
  simp only [HoldsDeclaredLen, hst]

theorem holdsDeclaredLen_dBody (hst : s.eng.st = .dBody) : HoldsDeclaredLen s ↔ declaredLen s = s.eng.len := by
  simp only [HoldsDeclaredLen, hst]

theorem holdsDeclaredLen_dTrl (hst : s.eng.st = .dTrl) : HoldsDeclaredLen s ↔ declaredLen s = s.eng.len := by
  simp only [HoldsDeclaredLen, hst]

theorem holdsDeclaredLen_of_not_decoding (h : s.eng.st ∉ [.dHdr, .dLen, .dBody, .dTrl]) : HoldsDeclaredLen s := by
  unfold HoldsDeclaredLen
  split <;> simp_all

theorem holdsDeclaredLen_firstState (hst : s.eng.st = firstState s.eng.op) : HoldsDeclaredLen s := by
  refine holdsDeclaredLen_of_not_decoding ?_
  rw [hst, firstState]
  split_ifs <;> decide

theorem holdsDeclaredLen_rowDChk : HoldsDeclaredLen (rowDChk s) := by
  unfold rowDChk
  split
  · trivial
  split
  · trivial
  · exact (holdsDeclaredLen_dHdr rfl).2 nofun

theorem holdsDeclaredLen_rowDHdr (hst : s.eng.st = .dHdr) (h : HoldsDeclaredLen s) :
    HoldsDeclaredLen (rowDHdr s) := by
  have hread := (holdsDeclaredLen_dHdr hst).1 h
  unfold rowDHdr
  split
  · rename_i hi
    refine (holdsDeclaredLen_dHdr (by exact hst)).2 fun k hk hki => ?_
    rw [lane_setLane _ _ _ _ hi hk]
    obtain rfl | hlt := Nat.eq_or_lt_of_le (Nat.le_of_lt_succ hki)
    · rw [if_pos rfl]
      rfl
    · rw [if_neg hlt.ne]
      exact hread k hk hlt
  split
  · rename_i hlengthRead _
    exact (holdsDeclaredLen_dHdr (by exact hst)).2 fun k hk _ => hread k hk (by omega)
  split
  · rename_i hi
    exact (holdsDeclaredLen_dLen rfl).2 (memRead32_of_lanes _ _ _ fun k hk => hread k hk (by omega))
  · exact h

theorem holdsDeclaredLen_rowDLen (hst : s.eng.st = .dLen) (h : HoldsDeclaredLen s) :
    HoldsDeclaredLen (rowDLen s) := by
  unfold rowDLen
  split
  · trivial
  · exact (holdsDeclaredLen_dBody rfl).2 ((holdsDeclaredLen_dLen hst).1 h)

theorem holdsDeclaredLen_rowDBody (hst : s.eng.st = .dBody) (h : HoldsDeclaredLen s) :
    HoldsDeclaredLen (rowDBody s) := by
  have hlen := (holdsDeclaredLen_dBody hst).1 h
  unfold rowDBody
  split
  · exact (holdsDeclaredLen_dBody (by exact hst)).2 hlen
  split
  · exact (holdsDeclaredLen_dTrl rfl).2 hlen
  · exact h

theorem holdsDeclaredLen_rowDTrl (hst : s.eng.st = .dTrl) (h : HoldsDeclaredLen s) :
    HoldsDeclaredLen (rowDTrl s) := by
  unfold rowDTrl
  split
  · exact (holdsDeclaredLen_dTrl (by exact hst)).2 ((holdsDeclaredLen_dTrl hst).1 h)
  split
  · trivial
  · exact h

theorem holdsDeclaredLen_rowDCmp : HoldsDeclaredLen (rowDCmp s) := by
  unfold rowDCmp
  split <;> trivial

/-- The rows of the CRC machine and of ENCODE lead to no state of DECODE. -/
theorem engineRow_not_decoding (hst : s.eng.st ∈ [.fRun, .fLoop, .eChk, .eHdr, .eBody, .eTrl]) :
    (engineRow s).eng.st ∉ [.dHdr, .dLen, .dBody, .dTrl] := by
  simp only [List.mem_cons, List.not_mem_nil, or_false] at hst
  obtain hst | hst | hst | hst | hst | hst := hst
  all_goals
    simp only [engineRow, hst, rowFRun, rowFLoop, rowEChk, rowEHdr, rowEBody, rowETrl]
    split_ifs <;> simp [hst]

theorem holdsDeclaredLen_engineRow (h : HoldsDeclaredLen s) : HoldsDeclaredLen (engineRow s) := by
  have hother (hst : s.eng.st ∈ [.fRun, .fLoop, .eChk, .eHdr, .eBody, .eTrl]) : HoldsDeclaredLen (engineRow s) :=
    holdsDeclaredLen_of_not_decoding (engineRow_not_decoding hst)
  cases hst : s.eng.st with
  | idle => simpa only [engineRow, hst]
  | xNop | xBad => simp only [engineRow, hst]; trivial
  | fRun | fLoop | eChk | eHdr | eBody | eTrl => exact hother (by simp [hst])
  | dChk => simp only [engineRow, hst]; exact holdsDeclaredLen_rowDChk
  | dHdr => simp only [engineRow, hst]; exact holdsDeclaredLen_rowDHdr hst h
  | dLen => simp only [engineRow, hst]; exact holdsDeclaredLen_rowDLen hst h
  | dBody => simp only [engineRow, hst]; exact holdsDeclaredLen_rowDBody hst h
  | dTrl => simp only [engineRow, hst]; exact holdsDeclaredLen_rowDTrl hst h
  | dCmp => simp only [engineRow, hst]; exact holdsDeclaredLen_rowDCmp

end DeclaredLen

/-! ## Rows taken before a merged run -/

/-- Every row that leaves the engine busy leaves what a merged run will give: it moves latches that are not read, or
writes what will be written again. -/
theorem completesAs_engineRow {s : State} (h : s.Inv) (hlen : HoldsDeclaredLen s) (hb : Busy s)
    (hb' : Busy (engineRow s)) : CompletesAs s (engineRow s) := by
  have hrow : RowEffect s (engineRow s) := engineRow_effect h
  generalize engineRow s = u at hrow hb'
  cases hrow with
  | completes => exact absurd rfl hb'
  | moves => exact .moveEngine hb hb' _ _ _ _
  | writesByte x b i acc hop hfit hx =>
    exact .moveEngine_of_run_eq (runCommand_memWrite8 h hb hop hfit hx b) hb hb' _ _ _ _
  | writesHeaderRegs lenReg tag st i acc hop hfit hmin =>
    exact .moveEngine_of_run_eq (runCommand_setHeaderRegs hb hop hfit hmin lenReg tag) hb hb' _ _ _ _
  | writesCrcRegs rxCrc calcCrc st hst hop hfit hrecord =>
    rw [← (holdsDeclaredLen_dTrl hst).1 hlen] at hrecord
    exact .moveEngine_of_run_eq (runCommand_setCrcRegs hb hop hfit hrecord rxCrc calcCrc) hb hb' _ _ _ _

theorem completesAs_engineRows {s : State} (h : s.Inv) (hlen : HoldsDeclaredLen s) (j : Nat)
    (hb : Busy (engineRows j s)) : CompletesAs s (engineRows j s) := by
  induction j generalizing s with
  | zero => exact .refl s
  | succ j ih =>
    have hrow : CompletesAs s (engineRow s) :=
      completesAs_engineRow h hlen (busy_engineRows_of_le hb (Nat.zero_le _))
        (busy_engineRows_of_le hb (Nat.succ_le_succ (Nat.zero_le j)))
    exact hrow.trans (ih (inv_engineRow h) (holdsDeclaredLen_engineRow hlen) hb)

/-- Settles O45: by induction on the rows taken, with the invariant and the length DECODE holds kept by each. -/
theorem mergedAndSplitRowsAgree : Obligations.MergedAndSplitRowsAgree := fun _ t j h hfirst ht hb =>
  completesAs_engineRows h (holdsDeclaredLen_firstState hfirst) j hb t ht

end Sys2Proof.Machine

/-! DECODE: its outcomes (R216, R227), which bytes of BUF they depend on (R224), its agreement with ENCODE (R225), and
that its reference machine (R226) reaches those outcomes. -/

namespace Sys2Proof.Machine

/-! ## The outcomes (R216) -/

section Outcomes

/-- The registers once DECODE has read the header (R218). -/
def headerRegs (s : State) : Regs := { s.regs with len := declaredLen s, tag := recordTag s }

/-- The registers once DECODE has read the whole record (R220, R221). -/
def recordRegs (s : State) : Regs := { headerRegs s with rxCrc := declaredCrc s, calcCrc := expectedCrc s }

/-- The window of DECODE lies in BUF and holds the whole record that its header declares. -/
structure HoldsRecord (s : State) : Prop where
  fits : FitsBuf s (engA s) (engN s)
  whole : 12 + (declaredLen s).toNat ≤ engN s

variable {s : State}

theorem exec_decodeRec (s : State) : exec .decodeRec s = .next (decodeResult s) := rfl

theorem decodeResult_of_range (h : ¬ FitsBuf s (engA s) (engN s)) : decodeResult s = failRecord .range s := if_pos h

theorem decodeResult_of_noHeader (hfit : FitsBuf s (engA s) (engN s)) (hshort : engN s < 12) :
    decodeResult s = failRecord .truncated s := (if_neg (not_not.2 hfit)).trans (if_pos hshort)

theorem decodeResult_of_truncated (hfit : FitsBuf s (engA s) (engN s)) (hmin : 12 ≤ engN s)
    (hshort : engN s < 12 + (declaredLen s).toNat) :
    decodeResult s = failRecord .truncated { s with regs := headerRegs s } := by
  rw [decodeResult, if_neg (not_not.2 hfit), if_neg (not_lt.2 hmin)]
  exact if_pos hshort

theorem decodeResult_of_holdsRecord (h : HoldsRecord s) :
    decodeResult s = if declaredCrc s = expectedCrc s then
        complete .noErr { s with regs := { recordRegs s with
          consumed := BitVec.ofNat 32 (12 + (declaredLen s).toNat) } }
      else failRecord .checksumMismatch { s with regs := recordRegs s } := by
  rw [decodeResult, if_neg (not_not.2 h.fits), if_neg (not_lt.2 (Nat.le_of_add_right_le h.whole))]
  exact if_neg (not_lt.2 h.whole)

theorem decodeResult_of_mismatch (h : HoldsRecord s) (hcrc : declaredCrc s ≠ expectedCrc s) :
    decodeResult s = failRecord .checksumMismatch { s with regs := recordRegs s } :=
  (decodeResult_of_holdsRecord h).trans (if_neg hcrc)

theorem decodeResult_of_match (h : HoldsRecord s) (hcrc : declaredCrc s = expectedCrc s) :
    decodeResult s = complete .noErr { s with regs := { recordRegs s with
      consumed := BitVec.ofNat 32 (12 + (declaredLen s).toNat) } } :=
  (decodeResult_of_holdsRecord h).trans (if_pos hcrc)

/-- DECODE succeeds on a whole record in BUF whose two checksums agree, and on nothing else (R216). -/
theorem decodeResult_accepts (haccepted : (decodeResult s).status.err = .noErr) :
    HoldsRecord s ∧ declaredCrc s = expectedCrc s := by
  by_cases hfit : FitsBuf s (engA s) (engN s)
  case neg => rw [decodeResult_of_range hfit] at haccepted; cases haccepted
  by_cases hmin : 12 ≤ engN s
  case neg => rw [decodeResult_of_noHeader hfit (not_le.1 hmin)] at haccepted; cases haccepted
  by_cases hwhole : 12 + (declaredLen s).toNat ≤ engN s
  case neg => rw [decodeResult_of_truncated hfit hmin (not_le.1 hwhole)] at haccepted; cases haccepted
  by_cases hcrc : declaredCrc s = expectedCrc s
  case neg => rw [decodeResult_of_mismatch ⟨hfit, hwhole⟩ hcrc] at haccepted; cases haccepted
  exact ⟨⟨hfit, hwhole⟩, hcrc⟩

end Outcomes

/-- Settles O36: the checks in their order, one equation for each way they can come out. -/
theorem decodeOutcomes : Obligations.DecodeOutcomes := by
  intro s
  refine ⟨fun hrange => ?range, fun hfit hshort => ?noHeader, ?record⟩
  case range => rw [exec_decodeRec, decodeResult_of_range (not_le.2 hrange)]; rfl
  case noHeader => rw [exec_decodeRec, decodeResult_of_noHeader hfit hshort]; rfl
  case record =>
    rintro _ _ _ _ hfit hmin rfl rfl rfl rfl
    refine ⟨fun hshort => ?truncated, fun hwhole hcrc => ?mismatch, fun hwhole hcrc => ?success⟩
    case truncated => rw [exec_decodeRec, decodeResult_of_truncated hfit hmin hshort]; rfl
    case mismatch => rw [exec_decodeRec, decodeResult_of_mismatch ⟨hfit, hwhole⟩ hcrc]; rfl
    case success => rw [exec_decodeRec, decodeResult_of_match ⟨hfit, hwhole⟩ hcrc]; rfl

/-! ## What DECODE reads (R224) -/

section RecordBytes

/-- In `t` the first `n` bytes from the latched ADDR, the same in both, read as they do in `s`. -/
structure SameRecordBytes (s t : State) (n : Nat) : Prop where
  latchA : t.eng.a = s.eng.a
  read : ∀ x, engA s ≤ x → x < engA s + n → memRead8 t x = memRead8 s x

namespace SameRecordBytes

variable {s t : State} {n : Nat}

theorem of_same_buf (ha : t.eng.a = s.eng.a) (hbuf : t.buf = s.buf) (hepoch : t.epoch = s.epoch) (n : Nat) :
    SameRecordBytes s t n := ⟨ha, fun x _ _ => memRead8_congr s t x hbuf hepoch⟩

theorem engA_eq (h : SameRecordBytes s t n) : engA t = engA s := congrArg BitVec.toNat h.latchA

theorem memRead32_eq (h : SameRecordBytes s t n) {k : Nat} (hk : k + 4 ≤ n) :
    memRead32 t (engA s + k) = memRead32 s (engA s + k) :=
  memRead32_congr t s _ fun x hlo hhi => h.read x (by omega) (by omega)

theorem memBytes_eq (h : SameRecordBytes s t n) {k m : Nat} (hk : k + m ≤ n) :
    memBytes t (engA s + k) m = memBytes s (engA s + k) m :=
  memBytes_congr t s _ m fun x hlo hhi => h.read x (by omega) (by omega)

theorem declaredLen_eq (h : SameRecordBytes s t n) (hn : 4 ≤ n) : declaredLen t = declaredLen s := by
  rw [declaredLen, h.engA_eq]
  exact h.memRead32_eq (k := 0) (by omega)

theorem recordTag_eq (h : SameRecordBytes s t n) (hn : 8 ≤ n) : recordTag t = recordTag s := by
  rw [Machine.recordTag_eq, Machine.recordTag_eq, h.engA_eq, h.memRead32_eq hn]

theorem expectedCrc_eq (h : SameRecordBytes s t n) (hn : 8 + (declaredLen s).toNat ≤ n) :
    expectedCrc t = expectedCrc s := by
  rw [expectedCrc, expectedCrc, h.declaredLen_eq (by omega), h.engA_eq, h.memBytes_eq (by omega), h.memBytes_eq hn]

theorem declaredCrc_eq (h : SameRecordBytes s t n) (hn : 12 + (declaredLen s).toNat ≤ n) :
    declaredCrc t = declaredCrc s := by
  rw [declaredCrc, declaredCrc, h.declaredLen_eq (by omega), h.engA_eq, Nat.add_assoc, h.memRead32_eq (by omega)]

end SameRecordBytes

/-- Over another buffer with the same record DECODE comes to the same result, and leaves that buffer (R224). -/
theorem decodeResult_of_sameRecordBytes {s : State} {m : Memory}
    (h : SameRecordBytes s { s with buf := m } (12 + (declaredLen s).toNat)) :
    decodeResult { s with buf := m } = { decodeResult s with buf := m } := by
  have hlen : declaredLen { s with buf := m } = declaredLen s := h.declaredLen_eq (by omega)
  have htag : recordTag { s with buf := m } = recordTag s := h.recordTag_eq (by omega)
  have hrx : declaredCrc { s with buf := m } = declaredCrc s := h.declaredCrc_eq le_rfl
  have hcalc : expectedCrc { s with buf := m } = expectedCrc s := h.expectedCrc_eq (by omega)
  simp only [decodeResult, hlen, htag, hrx, hcalc]
  split_ifs <;> rfl

end RecordBytes

/-- Settles O37: each field that DECODE reads lies in the record. -/
theorem decodeIgnoresBytesOutsideTheRecord : Obligations.DecodeIgnoresBytesOutsideTheRecord := by
  intro s t m hread ht
  obtain rfl : decodeResult s = t := Host.Outcome.next.inj ht
  rw [exec_decodeRec, decodeResult_of_sameRecordBytes ⟨rfl, fun x hlo hhi => hread x hlo ?_⟩]
  rwa [← Nat.add_assoc] at hhi

/-! ## A flipped bit of the checksum field (R189, R222) -/

section Trailer

variable {s : State}

/-- The checksum field is the end of the record: writing it changes no byte before it. -/
theorem sameRecordBytes_memWrite32_trailer (n : Nat) (v : Word) :
    SameRecordBytes s (memWrite32 (engA s + 8 + n) v s) (8 + n) :=
  ⟨rfl, fun x _ hhi => by
    rw [memWrite32, memRead8_memWriteBytes_bytesBE32, if_neg (by omega)]⟩

/-- A whole record whose checksum field is overwritten by another word is rejected, and CALC_CRC is what it was. -/
theorem decodeResult_memWrite32_trailer (h : HoldsRecord s) {v : Word} (hv : v ≠ expectedCrc s) :
    decodeResult (memWrite32 (engA s + 8 + (declaredLen s).toNat) v s) =
      failRecord .checksumMismatch { memWrite32 (engA s + 8 + (declaredLen s).toNat) v s with
        regs := { headerRegs s with rxCrc := v, calcCrc := expectedCrc s } } := by
  have hsame := sameRecordBytes_memWrite32_trailer (s := s) (declaredLen s).toNat v
  generalize hu : memWrite32 (engA s + 8 + (declaredLen s).toNat) v s = u at hsame ⊢
  have hlen : declaredLen u = declaredLen s := hsame.declaredLen_eq (by omega)
  have htag : recordTag u = recordTag s := hsame.recordTag_eq (by omega)
  have hcalc : expectedCrc u = expectedCrc s := hsame.expectedCrc_eq le_rfl
  have hrx : declaredCrc u = v := by
    rw [declaredCrc, hlen, hsame.engA_eq, ← hu, memRead32_memWrite32]
  have hrecord : HoldsRecord u := ⟨by subst hu; exact h.fits, by rw [hlen]; subst hu; exact h.whole⟩
  rw [decodeResult_of_mismatch hrecord (by rwa [hrx, hcalc]), recordRegs, headerRegs, hlen, htag, hrx, hcalc, ← hu]
  rfl

theorem xor_bit_ne (v : Word) {k : Nat} (hk : k < 32) : v ^^^ (1#32 <<< k) ≠ v := by
  intro h
  have hbit := congrArg (·.getLsbD k) h
  simp [hk] at hbit

end Trailer

/-- Settles O38: the flip leaves the fields before it, so the checksum DECODE computes is the one the field held. -/
theorem checksumFieldFlipIsRejected : Obligations.ChecksumFieldFlipIsRejected := by
  intro s t k hk ht haccepted
  obtain rfl : decodeResult s = t := Host.Outcome.next.inj ht
  obtain ⟨hrecord, hcrc⟩ := decodeResult_accepts haccepted
  have hresult := decodeResult_of_match hrecord hcrc
  have hlen : (decodeResult s).regs.len = declaredLen s := by rw [hresult]; rfl
  have hrx : (decodeResult s).regs.rxCrc = expectedCrc s := by rw [hresult, ← hcrc]; rfl
  have hcalc : (decodeResult s).regs.calcCrc = expectedCrc s := by rw [hresult]; rfl
  rw [hlen, hrx, hcalc, exec_decodeRec, decodeResult_memWrite32_trailer hrecord (xor_bit_ne _ hk)]
  exact ⟨_, rfl, rfl, rfl, rfl⟩

/-! ## The round trip with ENCODE (R225) -/

/-- The lanes of a word of BUF are its bytes (R12). -/
theorem lane_memRead32 (s : State) (a : Nat) {k : Nat} (hk : k < 4) : lane (memRead32 s a) k = memRead8 s (a + k) := by
  obtain rfl | rfl | rfl | rfl : k = 0 ∨ k = 1 ∨ k = 2 ∨ k = 3 := by omega
  · exact lane_be32_zero _ _ _ _
  · exact lane_be32_one _ _ _ _
  · exact lane_be32_two _ _ _ _
  · exact lane_be32_three _ _ _ _

theorem lane_memRead32_sub (s : State) {a x : Nat} (hlo : a ≤ x) (hhi : x < a + 4) :
    lane (memRead32 s a) (x - a) = memRead8 s x := by
  rw [lane_memRead32 s a (by omega), Nat.add_sub_cancel' hlo]

theorem tagBytes_recordTag (s : State) : tagBytes (recordTag s) = memBytes s (engA s + 4) 4 :=
  (memBytes_of_lanes s _ _ fun _ hk => (lane_memRead32 s _ hk).symm).symm

section RoundTrip

variable {s : State} (h : FitsBuf s (engA s) (12 + engN s))

include h

theorem engA_encodeResult : engA (encodeResult s) = engA s := by
  rw [encodeResult_of_fits h]
  rfl

theorem declaredLen_encodeResult : declaredLen (encodeResult s) = s.eng.n := by
  rw [declaredLen, engA_encodeResult h]
  exact memRead32_of_lanes _ _ _ fun _ => memRead8_encodeResult_length h

theorem recordTag_encodeResult : recordTag (encodeResult s) = s.regs.tag := by
  rw [recordTag_eq, engA_encodeResult h]
  exact memRead32_of_lanes _ _ _ fun _ => memRead8_encodeResult_tag h

theorem declaredCrc_encodeResult : declaredCrc (encodeResult s) = (encodeResult s).regs.calcCrc := by
  rw [declaredCrc, declaredLen_encodeResult h, engA_encodeResult h, encodeResult_calcCrc h]
  exact memRead32_of_lanes _ _ _ fun _ => memRead8_encodeResult_crc h

theorem expectedCrc_encodeResult : expectedCrc (encodeResult s) = (encodeResult s).regs.calcCrc := by
  rw [expectedCrc, declaredLen_encodeResult h, engA_encodeResult h, memBytes_encodeResult_tag h,
    memBytes_encodeResult_payload h, ← encodeCrc_writeHeader, encodeResult_calcCrc h]

end RoundTrip

/-- Settles O40: the record that DECODE reads has the fields that ENCODE wrote, and its two checksums are the same. -/
theorem encodeThenDecodeRoundTrips : Obligations.EncodeThenDecodeRoundTrips := by
  intro s t u hfits ht hbuf hepoch hbufBytes ha hwhole hwindow
  obtain rfl : encodeResult s = t := Host.Outcome.next.inj ht
  have h : FitsBuf s (engA s) (12 + engN s) := by omega
  have ha' : u.eng.a = (encodeResult s).eng.a := by rw [ha, encodeResult_of_fits h]; rfl
  have hsame (n : Nat) : SameRecordBytes (encodeResult s) u n := .of_same_buf ha' hbuf hepoch n
  have hlen : declaredLen u = s.eng.n := ((hsame _).declaredLen_eq le_rfl).trans (declaredLen_encodeResult h)
  have htag : recordTag u = s.regs.tag := ((hsame _).recordTag_eq le_rfl).trans (recordTag_encodeResult h)
  have hrx : declaredCrc u = (encodeResult s).regs.calcCrc :=
    ((hsame _).declaredCrc_eq le_rfl).trans (declaredCrc_encodeResult h)
  have hcalc : expectedCrc u = (encodeResult s).regs.calcCrc :=
    ((hsame _).expectedCrc_eq le_rfl).trans (expectedCrc_encodeResult h)
  have hrecord : HoldsRecord u := ⟨hwindow, by rwa [hlen]⟩
  refine ⟨_, exec_decodeRec u, ?_⟩
  rw [decodeResult_of_match hrecord (hrx.trans hcalc.symm), hlen]
  exact ⟨rfl, hlen, htag, hrx, hcalc, rfl, rfl⟩

/-! ## Encoding an accepted record again (R225) -/

/-- The latched operands and TAG are the fields of the record that stands at the latched ADDR. -/
structure FramesItsRecord (s : State) : Prop where
  len : s.eng.n = declaredLen s
  tag : s.regs.tag = recordTag s
  crc : declaredCrc s = expectedCrc s

section Reencode

variable {s : State}

theorem encodeCrc_of_framesItsRecord (h : FramesItsRecord s) : encodeCrc (writeHeader s) = expectedCrc s := by
  rw [encodeCrc_writeHeader, h.tag, tagBytes_recordTag, engN, h.len, expectedCrc]

/-- ENCODE over such a record writes each byte as it stands. -/
theorem memRead8_encodeResult_of_framesItsRecord (hfit : FitsBuf s (engA s) (12 + engN s)) (h : FramesItsRecord s)
    (x : Nat) : memRead8 (encodeResult s) x = memRead8 s x := by
  rw [memRead8_encodeResult hfit]
  split
  case isTrue hx =>
    rw [encodeCrc_of_framesItsRecord h, ← h.crc, declaredCrc, ← h.len]
    exact lane_memRead32_sub s hx.1 hx.2
  split
  case isTrue hx =>
    rw [h.tag, recordTag_eq]
    exact lane_memRead32_sub s hx.1 (by omega)
  split
  case isTrue hx =>
    rw [h.len, declaredLen]
    exact lane_memRead32_sub s hx.1 hx.2
  rfl

end Reencode

/-- Settles O41: what DECODE left in the registers is what stands in BUF, so ENCODE writes that again. -/
theorem reencodeOfADecodedRecordIsIdempotent : Obligations.ReencodeOfADecodedRecordIsIdempotent := by
  intro s v w hv haccepted hbuf hepoch hbufBytes htag ha hn
  obtain rfl : decodeResult s = v := Host.Outcome.next.inj hv
  obtain ⟨hrecord, hcrc⟩ := decodeResult_accepts haccepted
  rw [decodeResult_of_match hrecord hcrc] at hbuf hepoch hbufBytes htag hn ⊢
  have hsame (n : Nat) : SameRecordBytes s w n := .of_same_buf ha hbuf hepoch n
  have hlen : declaredLen w = declaredLen s := (hsame _).declaredLen_eq le_rfl
  have hcalc : expectedCrc w = expectedCrc s := (hsame _).expectedCrc_eq le_rfl
  have hframes : FramesItsRecord w :=
    ⟨hn.trans hlen.symm, htag.trans ((hsame _).recordTag_eq le_rfl).symm,
      ((hsame _).declaredCrc_eq le_rfl).trans (hcrc.trans hcalc.symm)⟩
  have hengN : engN w = (declaredLen s).toNat := congrArg BitVec.toNat hn
  have hfit : FitsBuf w (engA w) (12 + engN w) := by
    obtain ⟨hwindow, hwhole⟩ := hrecord
    rw [FitsBuf, hbufBytes, (hsame 0).engA_eq, hengN]
    exact (Nat.add_le_add_left hwhole _).trans hwindow
  refine ⟨_, exec_encodeRec w, ?_, ?_, ?_, fun x => ?_⟩
  · rw [encodeResult_of_fits hfit]; rfl
  · rw [encodeResult_calcCrc hfit, encodeCrc_of_framesItsRecord hframes, hcalc]; rfl
  · rw [encodeResult_of_fits hfit, hengN]; rfl
  · rw [memRead8_encodeResult_of_framesItsRecord hfit hframes x]
    exact memRead8_congr s w x hbuf hepoch

/-! ## The phases of R226 -/

section Phases

variable {s : State}

theorem engineRow_dChk (hst : s.eng.st = .dChk) : engineRow s = rowDChk s := by
  rw [engineRow, hst]

theorem engineRow_dChk_of_range (hst : s.eng.st = .dChk) (h : ¬ FitsBuf s (engA s) (engN s)) :
    engineRow s = failRecord .range s := (engineRow_dChk hst).trans (if_pos h)

theorem engineRow_dChk_of_noHeader (hst : s.eng.st = .dChk) (hfit : FitsBuf s (engA s) (engN s))
    (hshort : engN s < 12) : engineRow s = failRecord .truncated s :=
  (engineRow_dChk hst).trans ((if_neg (not_not.2 hfit)).trans (if_pos hshort))

theorem engineRow_dChk_of_header (hst : s.eng.st = .dChk) (hfit : FitsBuf s (engA s) (engN s))
    (hmin : 12 ≤ engN s) : engineRow s = s.moveEngine .dHdr 0 0xFFFFFFFF#32 s.eng.len s.eng.rx :=
  (engineRow_dChk hst).trans ((if_neg (not_not.2 hfit)).trans (if_neg (not_lt.2 hmin)))

theorem engineRow_dHdr_length {i : Nat} (hi : i < 4) (acc len rx : Word) (s : State) :
    engineRow (s.moveEngine .dHdr i acc len rx) =
      s.moveEngine .dHdr (i + 1) acc (setLane len i (memRead8 s (engA s + i))) rx := if_pos hi

theorem engineRow_dHdr_tag {i : Nat} (hlo : 4 ≤ i) (hhi : i < 8) (acc len rx : Word) (s : State) :
    engineRow (s.moveEngine .dHdr i acc len rx) =
      State.moveEngine { s with regs := { s.regs with
          tag := setLane s.regs.tag (i - 4) (memRead8 s (engA s + i)) } }
        .dHdr (i + 1) (crcByte acc (memRead8 s (engA s + i))) len rx :=
  (if_neg (not_lt.2 hlo)).trans (if_pos hhi)

theorem engineRow_dHdr_last (acc len rx : Word) (s : State) :
    engineRow (s.moveEngine .dHdr 8 acc len rx) =
      State.moveEngine { s with regs := { s.regs with len := len } } .dLen 8 acc len rx := rfl

/-- D_HDR, the length: four lanes are read and none is folded. -/
theorem engineRows_dHdr_length (acc len rx : Word) (s : State) :
    engineRows 4 (s.moveEngine .dHdr 0 acc len rx) = s.moveEngine .dHdr 4 acc (declaredLen s) rx := by
  simp only [engineRows, engineRow_dHdr_length, Nat.reduceLT, Nat.reduceAdd, setLane_all, declaredLen, memRead32,
    Nat.add_zero]

/-- D_HDR, the tag: four lanes are read and folded, and the fifth row leaves the state. -/
theorem engineRows_dHdr_tag (acc len rx : Word) (s : State) :
    engineRows 5 (s.moveEngine .dHdr 4 acc len rx) =
      State.moveEngine { s with regs := { s.regs with len := len, tag := recordTag s } }
        .dLen 8 (crcFold acc (memBytes s (engA s + 4) 4)) len rx := by
  have hread (r : Regs) (a : Nat) : memRead8 { s with regs := r } a = memRead8 s a := rfl
  simp only [engineRows, engineRow_dHdr_tag, engineRow_dHdr_last, Nat.reduceLeDiff, Nat.reduceLT, Nat.reduceAdd,
    Nat.reduceSub, hread, setLane_all, recordTag, memBytes, crcFold_cons, crcFold_nil, Nat.add_assoc]

/-- D_CHK and D_HDR: LEN and TAG are new, and the tag is folded. -/
theorem engineRows_header (hst : s.eng.st = .dChk) (hfit : FitsBuf s (engA s) (engN s)) (hmin : 12 ≤ engN s) :
    engineRows (1 + (4 + 5)) s = State.moveEngine { s with regs := headerRegs s } .dLen 8
      (crcFold 0xFFFFFFFF#32 (memBytes s (engA s + 4) 4)) (declaredLen s) s.eng.rx := by
  have hcheck : engineRows 1 s = s.moveEngine .dHdr 0 0xFFFFFFFF#32 s.eng.len s.eng.rx :=
    engineRow_dChk_of_header hst hfit hmin
  rw [engineRows_add, hcheck, engineRows_add, engineRows_dHdr_length, engineRows_dHdr_tag]
  rfl

theorem engineRow_dLen_of_truncated (acc len rx : Word) {i : Nat} (hshort : engN s < 12 + len.toNat) :
    engineRow (s.moveEngine .dLen i acc len rx) = failRecord .truncated (s.moveEngine .dLen i acc len rx) :=
  if_pos hshort

theorem engineRow_dLen_of_whole (acc len rx : Word) {i : Nat} (hwhole : 12 + len.toNat ≤ engN s) :
    engineRow (s.moveEngine .dLen i acc len rx) = s.moveEngine .dBody 0 acc len rx := if_neg (not_lt.2 hwhole)

/-- D_BODY up to byte `m` of the payload. -/
theorem engineRows_dBody_bytes (acc len rx : Word) (s : State) {m : Nat} (hm : m ≤ len.toNat) :
    engineRows m (s.moveEngine .dBody 0 acc len rx) =
      s.moveEngine .dBody m (crcFold acc (memBytes s (engA s + 8) m)) len rx := by
  induction m with
  | zero => rfl
  | succ m ih =>
    rw [engineRows_succ, ih (Nat.le_of_succ_le hm), memBytes_succ, crcFold_snoc]
    exact if_pos (show m < len.toNat from hm)

/-- D_BODY: the payload is folded, and the row that leaves the state complements the fold (R183). -/
theorem engineRows_dBody (acc len rx : Word) (s : State) :
    engineRows (len.toNat + 1) (s.moveEngine .dBody 0 acc len rx) = s.moveEngine .dTrl 0
      (crcFold acc (memBytes s (engA s + 8) len.toNat) ^^^ 0xFFFFFFFF#32) len rx := by
  rw [engineRows_succ, engineRows_dBody_bytes acc len rx s le_rfl]
  exact (if_neg (Nat.lt_irrefl _)).trans (if_pos rfl)

theorem engineRow_dTrl {i : Nat} (hi : i < 4) (acc len rx : Word) (s : State) :
    engineRow (s.moveEngine .dTrl i acc len rx) =
      s.moveEngine .dTrl (i + 1) acc len (setLane rx i (memRead8 s (engA s + 8 + len.toNat + i))) := if_pos hi

theorem engineRow_dTrl_last (acc len rx : Word) (s : State) :
    engineRow (s.moveEngine .dTrl 4 acc len rx) =
      State.moveEngine { s with regs := { s.regs with rxCrc := rx, calcCrc := acc } } .dCmp 4 acc len rx := rfl

/-- D_TRL: the four lanes of the checksum field are read, and the fifth row writes RX_CRC and CALC_CRC. -/
theorem engineRows_dTrl (acc len rx : Word) (s : State) :
    engineRows 5 (s.moveEngine .dTrl 0 acc len rx) =
      State.moveEngine { s with regs := { s.regs with
          rxCrc := memRead32 s (engA s + 8 + len.toNat), calcCrc := acc } }
        .dCmp 4 acc len (memRead32 s (engA s + 8 + len.toNat)) := by
  simp only [engineRows, engineRow_dTrl, engineRow_dTrl_last, Nat.reduceLT, Nat.reduceAdd, setLane_all, memRead32,
    Nat.add_zero]

/-- The machine's running fold, tag first, is the checksum DECODE computes (R182, R221). -/
theorem expectedCrc_eq_crcFold (s : State) :
    expectedCrc s = crcFold (crcFold 0xFFFFFFFF#32 (memBytes s (engA s + 4) 4))
      (memBytes s (engA s + 8) (declaredLen s).toNat) ^^^ 0xFFFFFFFF#32 := by
  rw [expectedCrc, crc32, crcFold_append]

/-- Every row but the completing one: the check, the header, the length check, the payload and the trailer. -/
theorem engineRows_decode_of_holdsRecord (hst : s.eng.st = .dChk) (h : HoldsRecord s) :
    engineRows (1 + (4 + 5) + 1 + ((declaredLen s).toNat + 1) + 5) s =
      State.moveEngine { s with regs := recordRegs s } .dCmp 4 (expectedCrc s) (declaredLen s) (declaredCrc s) := by
  have hlenCheck : engineRows (1 + (4 + 5) + 1) s = State.moveEngine { s with regs := headerRegs s } .dBody 0
      (crcFold 0xFFFFFFFF#32 (memBytes s (engA s + 4) 4)) (declaredLen s) s.eng.rx := by
    rw [engineRows_succ, engineRows_header hst h.fits (Nat.le_of_add_right_le h.whole)]
    exact engineRow_dLen_of_whole _ _ _ h.whole
  have hpayload : memBytes { s with regs := headerRegs s } (engA s + 8) (declaredLen s).toNat =
      memBytes s (engA s + 8) (declaredLen s).toNat :=
    memBytes_eq_of_same_buf (s := s) (t := { s with regs := headerRegs s }) rfl rfl _ _
  have hbody : engineRows (1 + (4 + 5) + 1 + ((declaredLen s).toNat + 1)) s =
      State.moveEngine { s with regs := headerRegs s } .dTrl 0 (expectedCrc s) (declaredLen s) s.eng.rx := by
    rw [engineRows_add, hlenCheck, engineRows_dBody, expectedCrc_eq_crcFold, ← hpayload]
  rw [engineRows_add, hbody, engineRows_dTrl]
  rfl

theorem engineRow_dCmp_of_match (i : Nat) (acc len : Word) (s : State) :
    engineRow (s.moveEngine .dCmp i acc len acc) = complete .noErr { s.moveEngine .dCmp i acc len acc with
      regs := { s.regs with consumed := BitVec.ofNat 32 (12 + len.toNat) } } := if_pos rfl

theorem engineRow_dCmp_of_mismatch (i : Nat) {acc rx : Word} (len : Word) (s : State) (hne : rx ≠ acc) :
    engineRow (s.moveEngine .dCmp i acc len rx) = failRecord .checksumMismatch (s.moveEngine .dCmp i acc len rx) :=
  if_neg hne

end Phases

/-- Settles O44: each outcome of R216 is the row that completes after the phases which that outcome needs. -/
theorem decodeMachineReachesItsCompletion : Obligations.DecodeMachineReachesItsCompletion := by
  intro s t hst ht
  obtain rfl : decodeResult s = t := Host.Outcome.next.inj ht
  have hbusy : Busy s := busy_of_st hst nofun
  by_cases hfit : FitsBuf s (engA s) (engN s)
  case neg =>
    refine completes_after 0 rfl hbusy ?_
    rw [decodeResult_of_range hfit, engineRows, engineRow_dChk_of_range hst hfit]
    exact .refl _
  by_cases hmin : 12 ≤ engN s
  case neg =>
    refine completes_after 0 rfl hbusy ?_
    rw [decodeResult_of_noHeader hfit (not_le.1 hmin), engineRows,
      engineRow_dChk_of_noHeader hst hfit (not_le.1 hmin)]
    exact .refl _
  by_cases hwhole : 12 + (declaredLen s).toNat ≤ engN s
  case neg =>
    refine completes_after _ (engineRows_header hst hfit hmin) nofun ?_
    rw [decodeResult_of_truncated hfit hmin (not_le.1 hwhole),
      engineRow_dLen_of_truncated (s := { s with regs := headerRegs s }) _ _ _ (not_le.1 hwhole)]
    rfl
  refine completes_after _ (engineRows_decode_of_holdsRecord hst ⟨hfit, hwhole⟩) nofun ?_
  by_cases hcrc : declaredCrc s = expectedCrc s
  case pos => rw [decodeResult_of_match ⟨hfit, hwhole⟩ hcrc, hcrc, engineRow_dCmp_of_match]; rfl
  case neg => rw [decodeResult_of_mismatch ⟨hfit, hwhole⟩ hcrc, engineRow_dCmp_of_mismatch _ _ _ hcrc]; rfl

end Sys2Proof.Machine

/-! What a busy engine does with the host's accesses: a command is dropped (R277), and a write to any other register but
STATUS, or an access to BUF, is refused (R278). -/

namespace Sys2Proof.Machine

section BusyHost

variable {s : State}

/-- R277: while busy the word is discarded, whichever command it names. -/
theorem issue_of_busy (hb : Busy s) (w : Word) :
    issue w s = { s with status := { s.status with cmdOvr := true } } := if_pos hb

theorem regWrite_of_busy {r : RegName} (hb : Busy s) (hcmd : r ≠ .cmd) (hstatus : r ≠ .status) (v : Word) :
    regWrite r v s = refuse false s := by
  cases r
  case cmd => exact absurd rfl hcmd
  case status => exact absurd rfl hstatus
  all_goals exact if_pos hb

/-- R278 in REG space; a misaligned write is refused whatever the engine does (R146). -/
theorem exec_regWrite32_of_busy {off : Word} (hb : Busy s) (hcmd : off ≠ 0x00#32) (hstatus : off ≠ 0x04#32) (v : Word) :
    exec (.regWrite32 off v) s = .next (refuse false s) := by
  by_cases ha : Aligned4 off
  · rw [exec_regWrite32_of_aligned ha,
      regWrite_of_busy hb (mt (regAt_eq_cmd off).1 hcmd) (mt (regAt_eq_status off).1 hstatus)]
  · exact exec_regWrite32_of_misaligned ha v s

end BusyHost

/-- No register read touches STATUS, a draw (R279) included. -/
theorem regRead_status (r : RegName) (s : State) : (regRead r s).status = s.status := by
  obtain ⟨v, h⟩ | ⟨_, h⟩ := regRead_cases r s
  · rw [h, answer_status]
  · rw [h, answerFree_status]

/-- Settles O15: a CMD write is `issue`, which drops the word while busy. -/
theorem cmdWriteWhileBusyIsDropped : Obligations.CmdWriteWhileBusyIsDropped := by
  intro s w hb
  rw [exec_regWrite32_of_aligned (by decide), (regAt_eq_cmd _).2 rfl]
  exact congrArg _ (issue_of_busy hb w)

/-- Settles O14: the write and the four BUF accesses are `refuse`, busy being a ground of its own beside R146's; a
read keeps STATUS even where it is a draw, and a STATUS write has no busy guard. -/
theorem busyRefusal : Obligations.BusyRefusal := fun _ hb =>
  ⟨fun _ v hcmd hstatus => exec_regWrite32_of_busy hb hcmd hstatus v,
    fun _ => exec_bufRead8_refused (.inl hb),
    fun _ v => exec_bufWrite8_refused (.inl hb) v,
    fun _ => exec_bufRead32_refused (.inl hb),
    fun _ v => exec_bufWrite32_refused (.inl hb) v,
    fun _ ha => ⟨_, exec_regRead32_of_aligned ha _, regRead_status _ _⟩,
    fun v => exec_regWrite32_status v _⟩

end Sys2Proof.Machine

/-! Decoding what the encoder gives (R113, R115, R116), and the transactions that a line of a host program stands for
(R119, R120). -/

namespace Sys2Proof

/-! ## The round trip of an encoding -/

theorem decode_encode (i : Instr) : decode (encode i) = .ok i := by
  cases i <;> rfl

/-- The model's layout (log 10) keeps the fields of a descriptor apart: 4 bits of kind below 8, 32 of offset below 40. -/
theorem fetchedOfBits_bitsOfFetched (f : Fetched) : fetchedOfBits (bitsOfFetched f).1 (bitsOfFetched f).2 = f := by
  cases f with
  | cmd w => exact congrArg Fetched.cmd ((BitVec.ofNat_toNat 32 w).trans (BitVec.setWidth_eq w))
  | txn x =>
    obtain ⟨kind, off, wdata⟩ := x
    have hkind := kind.isLt
    have hoff := off.isLt
    have hwdata := wdata.isLt
    simp only [fetchedOfBits, bitsOfFetched, Nat.reduceEqDiff, if_false, Fetched.txn.injEq, Txn.mk.injEq]
    refine ⟨?_, ?_, ?_⟩
    all_goals
      apply BitVec.eq_of_toNat_eq
      rw [BitVec.toNat_ofNat]
      omega

theorem decodeTableWord_bitsOfFetched {f : Fetched} {i : Instr} (h : decode f = .ok i) :
    decodeTableWord (bitsOfFetched f).1 (bitsOfFetched f).2 = some i := by
  simp only [decodeTableWord, fetchedOfBits_bitsOfFetched, h]

/-- Settles O2: an encoding's bits give the encoding back, and an encoding decodes to its instruction. -/
theorem tableWordsRoundTrip : Obligations.TableWordsRoundTrip := fun i =>
  ⟨decode_encode i, decodeTableWord_bitsOfFetched (decode_encode i)⟩

/-- Settles O1: each from the word or kind it writes out. -/
theorem decodeReadsSpecWords : Obligations.DecodeReadsSpecWords :=
  ⟨decode_word_encodeRec, decode_kind_regWrite32 _ _, decode_kind_bufRead8 _ _, rfl, rfl,
    (decodeCmd_eq_reserved_iff 0x10#32).2 (by decide),
    (decodeTxn_eq_refused_iff ⟨0b0110#4, 0#32, 0#32⟩).2 (by decide)⟩

end Sys2Proof

namespace Sys2Proof.Machine

/-! ## Lines of a host program -/

@[simp] theorem writeBytes_length (off : Word) (bs : List Byte) : (writeBytes off bs).length = bs.length := by
  induction bs generalizing off with
  | nil => rfl
  | cons b bs ih => exact congrArg Nat.succ (ih (off + 1#32))

/-- WBS writes the k-th byte at the k-th offset from the first, modulo 2^32 (log 21). -/
theorem writeBytes_getElem? (off : Word) (bs : List Byte) (k : Nat) :
    (writeBytes off bs)[k]? = bs[k]?.map fun b => ⟨0x3#4, off + BitVec.ofNat 32 k, b.setWidth 32⟩ := by
  induction bs generalizing off k with
  | nil => rfl
  | cons b bs ih =>
    cases k with
    | zero => simp [writeBytes]
    | succ k =>
      have hoff : off + 1#32 + BitVec.ofNat 32 k = off + BitVec.ofNat 32 (k + 1) := by
        rw [BitVec.add_assoc, Nat.add_comm k 1, BitVec.ofNat_add]
      simp only [writeBytes, List.getElem?_cons_succ, ih, hoff]

theorem kind_of_mem_writeBytes {x : Txn} {off : Word} {bs : List Byte} (h : x ∈ writeBytes off bs) : x.kind = 0x3#4 := by
  obtain ⟨k, hk⟩ := List.mem_iff_getElem?.1 h
  rw [writeBytes_getElem?, Option.map_eq_some_iff] at hk
  obtain ⟨_, _, rfl⟩ := hk
  rfl

theorem eq_of_mem_tableKinds {k : BitVec 4} (h : k ∈ tableKinds) :
    k = 0x8#4 ∨ k = 0x9#4 ∨ k = 0x2#4 ∨ k = 0x3#4 ∨ k = 0xA#4 ∨ k = 0xB#4 := by
  simpa [tableKinds] using h

/-- A kind of R116's table decodes whatever the offset and the write data. -/
theorem decodeTxn_of_mem_tableKinds {x : Txn} (h : x.kind ∈ tableKinds) : ∃ i, decodeTxn x = .ok i := by
  obtain ⟨kind, off, wdata⟩ := x
  obtain rfl | rfl | rfl | rfl | rfl | rfl := eq_of_mem_tableKinds h
  all_goals exact ⟨_, rfl⟩

theorem kind_of_mem_pollReads {x : Txn} {again : Nat} (h : x ∈ pollReads again) : x.kind = 0x8#4 :=
  congrArg Txn.kind (List.eq_of_mem_replicate h)

/-- Every transaction that a line stands for is of a kind in R116's table. -/
theorem kind_mem_tableKinds_of_mem_expand {l : HostLine} {x : Txn} (h : x ∈ l.expand) : x.kind ∈ tableKinds := by
  have hread : 0x8#4 ∈ tableKinds := by decide
  have hwrite : 0x9#4 ∈ tableKinds := by decide
  cases l with
  | rd | wr | rb | wb | rw | ww | cmd | clr => obtain rfl := List.mem_singleton.1 h; simp [tableKinds, issueTxn]
  | poll again => rwa [kind_of_mem_pollReads h]
  | wbs off text => rw [kind_of_mem_writeBytes h]; decide
  | run c again =>
    obtain rfl | hpoll := List.mem_cons.1 h
    · exact hwrite
    · rwa [kind_of_mem_pollReads hpoll]

/-- Settles O56: every line but POLL and WBS is its list as it stands; POLL is one read repeated, and WBS goes byte by
byte. -/
theorem hostLinesAreTableTransactions : Obligations.HostLinesAreTableTransactions := by
  refine ⟨fun _ _ => ⟨rfl, rfl⟩, fun _ _ _ => ⟨rfl, rfl, rfl, rfl⟩, rfl, rfl, rfl, rfl, rfl,
    fun n => ⟨List.length_replicate, fun x hx => List.eq_of_mem_replicate hx⟩, rfl,
    fun off text => ⟨writeBytes_length off text, fun k b hb => ?_⟩, fun _ _ => rfl,
    fun l x hx => decodeTxn_of_mem_tableKinds (kind_mem_tableKinds_of_mem_expand hx)⟩
  rw [HostLine.expand, writeBytes_getElem?, hb]
  rfl

end Sys2Proof.Machine

/-! The CRC-32 as a linear map (R180, R189), and the reference machine of its two commands (R187). -/

namespace Sys2Proof.Machine

/-! ## The residue (R180) -/

/-- The `n` low bytes of a word, the least significant first. -/
def lowBytes : Nat → Word → List Byte
  | 0, _ => []
  | n + 1, v => lowByte v :: lowBytes n (v >>> 8)

theorem crcByte_lowByte (c v : Word) : crcByte c (lowByte v) = crcByte (c ^^^ v) 0#8 ^^^ v >>> 8 := by
  have hhigh : crcBits8 ((v >>> 8) <<< 8) = v >>> 8 := crcBits8_high_bytes v
  have hsplit : c ^^^ v = (c ^^^ (lowByte v).setWidth 32) ^^^ (v >>> 8) <<< 8 := by
    conv_lhs => rw [eq_high_xor_lowByte v]
    rw [BitVec.xor_comm ((v >>> 8) <<< 8), BitVec.xor_assoc]
  have hzero : crcByte (c ^^^ v) 0#8 = crcBits8 (c ^^^ v) := congrArg crcBits8 BitVec.xor_zero
  rw [hzero, hsplit, crcBits8_xor, hhigh, BitVec.xor_assoc, BitVec.xor_self, BitVec.xor_zero, crcByte]

/-- Folding a word's low bytes is folding zeros from the sum with that word: bytes not yet reached only move down. -/
theorem crcFold_lowBytes (n : Nat) (c v : Word) :
    crcFold c (lowBytes n v) = crcFold (c ^^^ v) (List.replicate n 0#8) ^^^ v >>> (8 * n) := by
  induction n generalizing c v with
  | zero =>
    rw [Nat.mul_zero, BitVec.ushiftRight_zero]
    show c = c ^^^ v ^^^ v
    rw [BitVec.xor_assoc, BitVec.xor_self, BitVec.xor_zero]
  | succ n ih =>
    have hnext : crcByte c (lowByte v) ^^^ v >>> 8 = crcByte (c ^^^ v) 0#8 := by
      rw [crcByte_lowByte, BitVec.xor_assoc, BitVec.xor_self, BitVec.xor_zero]
    rw [lowBytes, crcFold_cons, ih, hnext, ← BitVec.shiftRight_add, Nat.mul_succ, Nat.add_comm 8]
    rfl

theorem lowByte_ushiftRight (v : Word) (n : Nat) : lowByte (v >>> n) = v.extractLsb' n 8 := by
  apply BitVec.eq_of_getLsbD_eq
  intro i hi
  simp [lowByte, hi]

theorem lowBytes_four (v : Word) :
    lowBytes 4 v = [v.extractLsb' 0 8, v.extractLsb' 8 8, v.extractLsb' 16 8, v.extractLsb' 24 8] := by
  simp only [lowBytes, ← BitVec.shiftRight_add, lowByte_ushiftRight, Nat.reduceAdd]
  rfl

theorem crcFold_four_zeros : crcFold 0xFFFFFFFF#32 (List.replicate 4 0#8) = 0xDEBB20E3#32 := by
  have h1 : crcByte 0xFFFFFFFF#32 0#8 = 0x2DFD1072#32 := by decide
  have h2 : crcByte 0x2DFD1072#32 0#8 = 0xBE26ED00#32 := by decide
  have h3 : crcByte 0xBE26ED00#32 0#8 = 0x00BE26ED#32 := by decide
  have h4 : crcByte 0x00BE26ED#32 0#8 = 0xDEBB20E3#32 := by decide
  simp only [List.replicate, crcFold_cons, crcFold_nil, h1, h2, h3, h4]

/-- Settles O31: the register and the checksum sum to all ones, whatever the message, and so the fold over the checksum
is that of four zeros from there. -/
theorem crcResidueOfMessageAndItsChecksum : Obligations.CrcResidueOfMessageAndItsChecksum := by
  intro m
  have hsum : crcFold 0xFFFFFFFF#32 m ^^^ crc32 m = 0xFFFFFFFF#32 := by
    rw [crc32, ← BitVec.xor_assoc, BitVec.xor_self, BitVec.zero_xor]
  have hgone : crc32 m >>> (8 * 4) = 0#32 := BitVec.ushiftRight_eq_zero (by decide)
  rw [← lowBytes_four, crcFold_append, crcFold_lowBytes, hsum, hgone, BitVec.xor_zero]
  exact crcFold_four_zeros

/-! ## One byte changed (R189) -/

/-- The polynomial's top bit is set, so the bit that leaves the register shows in bit 31. -/
theorem crcBit_getLsbD_31 (x : Word) : (crcBit x).getLsbD 31 = x.getLsbD 0 := by
  unfold crcBit
  cases x.getLsbD 0 with
  | false => simp
  | true => simp

theorem crcBit_injective : Function.Injective crcBit := by
  intro x y h
  have hlow : x.getLsbD 0 = y.getLsbD 0 := by rw [← crcBit_getLsbD_31, h, crcBit_getLsbD_31]
  have hhigh : x >>> 1 = y >>> 1 := by
    unfold crcBit at h
    rw [hlow] at h
    split at h
    · exact (BitVec.xor_left_inj _).1 h
    · exact h
  apply BitVec.eq_of_getLsbD_eq
  intro i hi
  cases i with
  | zero => exact hlow
  | succ i => simpa [Nat.add_comm] using congrArg (·.getLsbD i) hhigh

theorem crcBits8_injective : Function.Injective crcBits8 := crcBit_injective.iterate 8

theorem crcByte_left_injective (b : Byte) : Function.Injective (crcByte · b) := fun _ _ h =>
  (BitVec.xor_left_inj _).1 (crcBits8_injective h)

theorem crcByte_right_injective (c : Word) : Function.Injective (crcByte c) := by
  intro x y h
  have hwide : x.setWidth 32 = y.setWidth 32 := (BitVec.xor_right_inj c).1 (crcBits8_injective h)
  simpa using congrArg (BitVec.setWidth 8) hwide

theorem crcFold_injective (s : List Byte) : Function.Injective (crcFold · s) := by
  induction s with
  | nil => exact Function.injective_id
  | cons b s ih => exact ih.comp (crcByte_left_injective b)

/-- Settles O32: the changed byte changes the register, and no byte after it can make two registers one. -/
theorem oneByteChangeChangesTheCrc : Obligations.OneByteChangeChangesTheCrc := by
  intro p q x y hne h
  have hfold : crcFold 0xFFFFFFFF#32 (p ++ x :: q) = crcFold 0xFFFFFFFF#32 (p ++ y :: q) :=
    (BitVec.xor_left_inj _).1 h
  rw [crcFold_append, crcFold_append] at hfold
  exact hne (crcByte_right_injective _ (crcFold_injective q hfold))

/-! ## The reference machine (R187) -/

section Phases

variable {s : State}

theorem engineRow_fRun (hst : s.eng.st = .fRun) : engineRow s = rowFRun s := by
  rw [engineRow, hst]

theorem engineRow_fRun_crcReset (hst : s.eng.st = .fRun) (hop : s.eng.op = 0x1#32) :
    engineRow s = crcResetResult s := (engineRow_fRun hst).trans (if_pos hop)

theorem engineRow_fRun_crcFeed (hst : s.eng.st = .fRun) (hop : s.eng.op = 0x2#32) :
    engineRow s = if ¬ FitsBuf s (engA s) (engN s) then complete .range s else atByte .fLoop 0 s.regs.crcAcc s := by
  have hne : s.eng.op ≠ 0x1#32 := by rw [hop]; decide
  exact (engineRow_fRun hst).trans ((if_neg hne).trans (if_pos hop))

/-- F_LOOP up to byte `m` of the range. -/
theorem engineRows_fLoop (c : Word) (s : State) {m : Nat} (hm : m ≤ engN s) :
    engineRows m (atByte .fLoop 0 c s) = atByte .fLoop m (crcFold c (memBytes s (engA s) m)) s := by
  induction m with
  | zero => rfl
  | succ m ih =>
    rw [engineRows_succ, ih (Nat.le_of_succ_le hm), memBytes_succ, crcFold_snoc]
    exact if_pos (show m < engN s from hm)

theorem engineRow_fLoop_last (c : Word) (s : State) :
    engineRow (atByte .fLoop (engN s) c s) =
      complete .noErr { atByte .fLoop (engN s) c s with regs := { s.regs with crcAcc := c } } :=
  (if_neg (Nat.lt_irrefl _)).trans (if_pos rfl)

end Phases

/-- Settles O42: CRC_RESET, and a range that does not fit, complete in the first row; any other range in the row after
its last byte. -/
theorem crcMachineReachesItsCompletion : Obligations.CrcMachineReachesItsCompletion := by
  intro s t i hst hcommand ht
  have hbusy : Busy s := busy_of_st hst nofun
  obtain ⟨hop, rfl⟩ | ⟨hop, rfl⟩ := hcommand
  case inl =>
    obtain rfl : crcResetResult s = t := Host.Outcome.next.inj ht
    refine completes_after 0 rfl hbusy ?_
    rw [engineRows, engineRow_fRun_crcReset hst hop]
    exact .refl _
  obtain rfl : crcFeedResult s = t := Host.Outcome.next.inj ht
  have hrow := engineRow_fRun_crcFeed hst hop
  by_cases hfit : FitsBuf s (engA s) (engN s)
  case neg =>
    refine completes_after 0 rfl hbusy ?_
    rw [crcFeedResult_of_range hfit, engineRows, hrow, if_pos hfit]
    exact .refl _
  case pos =>
    have hloop : engineRows (1 + engN s) s =
        atByte .fLoop (engN s) (crcFold s.regs.crcAcc (memBytes s (engA s) (engN s))) s := by
      rw [engineRows_add, engineRows, engineRows, hrow, if_neg (not_not.2 hfit), engineRows_fLoop _ _ le_rfl]
    refine completes_after _ hloop nofun ?_
    rw [crcFeedResult_of_fits hfit, engineRow_fLoop_last]
    rfl

end Sys2Proof.Machine

/-! What the host sees and can do: reads and their draws (R87, R279), read-only registers (R32), lanes of BUF (R83), a
reserved command (R152); and that only a CMD write reaches the engine, whose latches show nowhere while it is idle. -/

namespace Sys2Proof.Machine

/-! ## STATUS by its fields (R34) -/

/-- The sticky bits stand beside the word of the other fields. -/
theorem statusWord_of_fields {s : State} {busy done : Bool} {err : ErrCode} (hbusy : decide (Busy s) = busy)
    (hdone : s.status.done = done) (herr : s.status.err = err) :
    statusWord s = (flagAt busy 0 ||| flagAt done 1 ||| err.code <<< 4) |||
      (if s.status.cmdOvr then 0x00000100#32 else 0#32) ||| (if s.status.busErr then 0x00000200#32 else 0#32) := by
  have hflag (b : Bool) (k : Nat) (v : Word) (hv : 1#32 <<< k = v) : flagAt b k = if b then v else 0#32 := by
    subst hv
    cases b
    · exact BitVec.zero_shiftLeft k
    · rfl
  rw [statusWord, hbusy, hdone, herr, hflag _ 8 0x00000100#32 rfl, hflag _ 9 0x00000200#32 rfl]

/-! ## Reads of the write set (R279) -/

section BusyRead

variable {s : State}

theorem regRead_of_hazard {r : RegName} (hb : Busy s) (hr : r ∈ writeSet s.eng.op) : regRead r s = answerFree s :=
  if_pos ⟨hb, hr⟩

/-- The write set of each command, by the offsets of its registers (R56). -/
theorem regAt_mem_writeSet {op off : Word}
    (h : ((op = 1#32 ∨ op = 2#32) ∧ off ∈ [0x28#32, 0x2C#32]) ∨ (op = 3#32 ∧ off ∈ [0x20#32, 0x24#32]) ∨
      (op = 4#32 ∧ off ∈ [0x10#32, 0x14#32, 0x18#32, 0x1C#32, 0x20#32, 0x24#32])) :
    Aligned4 off ∧ regAt off ∈ writeSet op := by
  have hset (op : Word) (offs : List Word) (hoffs : offs.all fun off =>
      decide (Aligned4 off) && decide (regAt off ∈ writeSet op)) (hoff : off ∈ offs) :
      Aligned4 off ∧ regAt off ∈ writeSet op := by
    simpa using List.all_eq_true.1 hoffs off hoff
  obtain ⟨rfl | rfl, hoff⟩ | ⟨rfl, hoff⟩ | ⟨rfl, hoff⟩ := h
  all_goals exact hset _ _ (by decide) hoff

end BusyRead

/-- Settles O12: the read is a draw, which leaves the engine as it was, so the next read is another. STATUS is in no
write set, and the invariant fixes its fields but the sticky bits. -/
theorem busyReadsOfTheWriteSetAreDraws : Obligations.BusyReadsOfTheWriteSetAreDraws := by
  intro s hb
  refine ⟨fun off hoff => ?draws, fun h => ?status⟩
  case draws =>
    obtain ⟨ha, hr⟩ := regAt_mem_writeSet hoff
    have hdraw (t : State) (ht : t.eng = s.eng) : exec (.regRead32 off) t = .next (answerFree t) := by
      rw [exec_regRead32_of_aligned ha, regRead_of_hazard (by rwa [Busy, ht]) (by rwa [ht])]
    exact ⟨answerFree s, hdraw s rfl, rfl, hdraw _ rfl⟩
  case status =>
    obtain ⟨hdone, herr⟩ := h.busyClear hb
    rw [exec_regRead32_of_aligned (by decide), (regAt_eq_status _).2 rfl,
      regRead_of_no_hazard fun hr => status_not_mem_writeSet _ hr.2, regValue,
      statusWord_of_fields (decide_eq_true hb) hdone herr]
    rfl

/-! ## Read-only registers (R32) -/

/-- The registers that no host write reaches, and the size of BUF. -/
structure KeepsReadOnly (s t : State) : Prop where
  rxCrc : t.regs.rxCrc = s.regs.rxCrc
  calcCrc : t.regs.calcCrc = s.regs.calcCrc
  consumed : t.regs.consumed = s.regs.consumed
  bufBytes : t.bufBytes = s.bufBytes

theorem KeepsReadOnly.issue (w : Word) (s : State) : KeepsReadOnly s (issue w s) := by
  obtain ⟨_, e⟩ | ⟨_, e⟩ := issue_cases w s <;> rw [e]
  · exact ⟨rfl, rfl, rfl, rfl⟩
  · exact ⟨rfl, rfl, rfl, rfl⟩

theorem KeepsReadOnly.storeReg (r : RegName) (v : Word) (s : State) : KeepsReadOnly s (storeReg r v s) := by
  obtain e | e | e | e | e | e := storeReg_cases r v s <;> rw [e]
  all_goals exact ⟨rfl, rfl, rfl, rfl⟩

theorem KeepsReadOnly.runTxn {x : Txn} {s t : State} (h : runTxn x s = .next t) : KeepsReadOnly s t := by
  obtain ⟨_, rfl⟩ | ⟨_, rfl⟩ | ⟨_, rfl⟩ | ⟨w, rfl⟩ | ⟨_, rfl⟩ | ⟨_, r, v, rfl⟩ | ⟨_, _, _, _, rfl⟩ := runTxn_cases h
  case inr.inr.inr.inl => exact .issue w s
  case inr.inr.inr.inr.inr.inl => exact .storeReg r v s
  all_goals exact ⟨rfl, rfl, rfl, rfl⟩

/-- Settles O20: by what a transaction can do; each listed offset names a register that stores nothing. -/
theorem readOnlyRegistersIgnoreTheHost : Obligations.ReadOnlyRegistersIgnoreTheHost := by
  refine ⟨fun s t x h => ?_, fun s off v hidle hoff => ?_⟩
  · obtain ⟨hrx, hcalc, hconsumed, hbufBytes⟩ := KeepsReadOnly.runTxn h
    exact ⟨hrx, hcalc, hconsumed, hbufBytes⟩
  · obtain rfl | rfl | rfl | rfl | rfl | rfl : off = 0x18#32 ∨ off = 0x1C#32 ∨ off = 0x20#32 ∨ off = 0x24#32 ∨
      off = 0x2C#32 ∨ off = 0x30#32 := by simpa using hoff
    all_goals exact exec_regWrite32_of_idle hidle (by decide) (by decide) (by decide) v

/-! ## Host reads (R87) -/

/-- Everything a read can do: it is refused, it answers, or it draws. The first two leave a state in which the same
read does nothing more. -/
inductive ReadEffect (i : Instr) (s : State) (refused : Prop) : State → Prop
  | refuses (h : refused) (again : exec i (refuse true s) = .next (refuse true s)) :
      ReadEffect i s refused (refuse true s)
  | answers (v : Word) (h : ¬ refused) (again : exec i (answer v s) = .next (answer v s)) :
      ReadEffect i s refused (answer v s)
  | draws (h : ¬ refused) (off : Word) (hi : i = .regRead32 off) (hb : Busy s) (hr : regAt off ∈ writeSet s.eng.op) :
      ReadEffect i s refused (answerFree s)

section Reads

variable {s t : State} {off : Word}

theorem regValue_answer (v : Word) (r : RegName) : regValue (answer v s) r = regValue s r := by
  cases r <;> rfl

theorem regRead32_effect (h : exec (.regRead32 off) s = .next t) :
    ReadEffect (.regRead32 off) s (off.toNat % 4 ≠ 0) t := by
  by_cases ha : off.toNat % 4 = 0
  case neg =>
    rw [exec_regRead32_of_misaligned ha] at h
    cases h
    exact .refuses ha (exec_regRead32_of_misaligned ha _)
  rw [exec_regRead32_of_aligned ha] at h
  by_cases hr : Busy s ∧ regAt off ∈ writeSet s.eng.op
  case pos =>
    rw [regRead_of_hazard hr.1 hr.2] at h
    cases h
    exact .draws (not_not.2 ha) off rfl hr.1 hr.2
  case neg =>
    rw [regRead_of_no_hazard hr] at h
    cases h
    refine .answers _ (not_not.2 ha) ?_
    rw [exec_regRead32_of_aligned ha, regRead_of_no_hazard (s := answer _ s) hr, regValue_answer]
    rfl

theorem bufRead8_effect (h : exec (.bufRead8 off) s = .next t) :
    ReadEffect (.bufRead8 off) s (Busy s ∨ ¬ ByteInBuf s off) t := by
  by_cases hrefused : Busy s ∨ ¬ ByteInBuf s off
  case pos =>
    rw [exec_bufRead8_refused hrefused] at h
    cases h
    exact .refuses hrefused (exec_bufRead8_refused (s := refuse true s) hrefused)
  case neg =>
    obtain ⟨hidle, hin⟩ := not_or.1 hrefused
    rw [exec_bufRead8_of_idle (not_not.1 hidle) (not_not.1 hin)] at h
    cases h
    exact .answers _ hrefused (exec_bufRead8_of_idle (s := answer _ s) (not_not.1 hidle) (not_not.1 hin))

theorem bufRead32_effect (h : exec (.bufRead32 off) s = .next t) :
    ReadEffect (.bufRead32 off) s (Busy s ∨ ¬ WordInBuf s off) t := by
  by_cases hrefused : Busy s ∨ ¬ WordInBuf s off
  case pos =>
    rw [exec_bufRead32_refused hrefused] at h
    cases h
    exact .refuses hrefused (exec_bufRead32_refused (s := refuse true s) hrefused)
  case neg =>
    obtain ⟨hidle, hin⟩ := not_or.1 hrefused
    rw [exec_bufRead32_of_idle (not_not.1 hidle) (not_not.1 hin)] at h
    cases h
    exact .answers _ hrefused (exec_bufRead32_of_idle (s := answer _ s) (not_not.1 hidle) (not_not.1 hin))

theorem ReadEffect.of_iff {i : Instr} {p q : Prop} (h : ReadEffect i s p t) (hq : q ↔ p) : ReadEffect i s q t := by
  rwa [propext hq]

end Reads

/-- Settles O21: each of the three reads has one of the three effects. -/
theorem hostReadsHaveNoSideEffect : Obligations.HostReadsHaveNoSideEffect := by
  intro s t off i refused hi ht
  have heffect : ReadEffect i s refused t := by
    obtain ⟨rfl, h⟩ | ⟨rfl, h⟩ | ⟨rfl, h⟩ := hi
    · exact (regRead32_effect ht).of_iff h
    · exact (bufRead8_effect ht).of_iff (h.trans (by rw [Nat.not_lt, or_comm]))
    · exact (bufRead32_effect ht).of_iff (h.trans (by rw [not_wordInBuf_iff, ← or_assoc, or_comm]))
  cases heffect with
  | refuses h again => exact ⟨fun _ => rfl, fun hn => absurd h hn, fun hd => absurd rfl hd, fun _ => again⟩
  | answers v h again => exact ⟨fun hr => absurd hr h, fun _ => rfl, fun hd => absurd rfl hd, fun _ => again⟩
  | draws h off' hreg hb hr =>
    have hoff : off' = off := by
      obtain ⟨rfl, _⟩ | ⟨rfl, _⟩ | ⟨rfl, _⟩ := hi <;> cases hreg
      rfl
    subst hoff
    exact ⟨fun hr => absurd hr h, fun _ => rfl, fun _ => ⟨hreg, hb, hr, rfl⟩, fun hd => absurd hd (Nat.succ_ne_self _)⟩

/-! ## Lanes of BUF (R83) -/

/-- An aligned word's byte offsets do not wrap. -/
theorem toNat_add_lane {off : Word} (ha : Aligned4 off) {k : Nat} (hk : k < 4) :
    (off + BitVec.ofNat 32 k).toNat = off.toNat + k := by
  have hlt := off.isLt
  rw [BitVec.toNat_add, BitVec.toNat_ofNat]
  omega

/-- Settles O24: lane k of a word of BUF is its byte k, whichever of the two was written. -/
theorem wordAndByteAccessesAgree : Obligations.WordAndByteAccessesAgree := by
  intro s off b v k hidle hk ha hin
  have hlane : (off + BitVec.ofNat 32 k).toNat = off.toNat + k := toNat_add_lane ha hk
  have hbyte : ByteInBuf s (off + BitVec.ofNat 32 k) := by omega
  refine ⟨⟨_, _, _, exec_bufWrite8_of_idle hidle hbyte b, exec_bufRead32_of_idle hidle ⟨ha, hin⟩, rfl, ?written,
    fun m hm hmk => ?kept⟩, ⟨_, _, _, exec_bufWrite32_of_idle hidle ⟨ha, hin⟩ v, exec_bufRead8_of_idle hidle hbyte, rfl,
    ?read⟩⟩
  case written =>
    refine (lane_memRead32 _ _ hk).trans ?_
    rw [memRead8_memWrite8, if_pos hlane.symm, lowByte]
  case kept =>
    refine (lane_memRead32 _ _ hm).trans ?_
    rw [memRead8_memWrite8, if_neg (by omega)]
  case read =>
    rw [BitVec.toNat_setWidth_of_le (by decide), hlane, memRead8_memWrite32_lane s _ v hk, lane]

/-! ## Reserved command words (R114, R152) -/

theorem firstState_of_reserved {w : Word} (h : 5 ≤ w.toNat) : firstState w = .xBad := by
  unfold firstState
  split_ifs
  case neg => rfl
  all_goals bv_omega

theorem engineRow_xBad {s : State} (h : s.eng.st = .xBad) : engineRow s = badCommand s := by
  rw [engineRow, h]

/-- Settles O26: the word is accepted into X_BAD, whose row and whose merged run are both `badCommand`. -/
theorem reservedCommandCompletesBadCmd : Obligations.ReservedCommandCompletesBadCmd := by
  intro s w hidle hfields
  have habove : 5 ≤ w.toNat := (five_le_toNat_iff_fields w).2 hfields
  have hst : (accept w s).eng.st = .xBad := firstState_of_reserved habove
  have hrun : runCommand (accept w s) = .next (badCommand (accept w s)) :=
    runCommand_of_reserved (busy_accept w s) ((decodeCmd_eq_reserved_iff w).2 habove)
  refine ⟨accept w s, badCommand (accept w s), exec_regWrite32_cmd_of_idle hidle w, hst, engineRow_xBad hst, hrun, rfl,
    rfl, rfl, ?_⟩
  exact statusWord_of_fields (s := badCommand (accept w s)) (busy := false) (done := true) (err := .badCmd) rfl rfl rfl

/-! ## The engine in a transaction's reach (R36, R54) -/

section IdleEngine

variable {s t : State} {e : Engine} {x : Txn}

/-- What a register reads as does not show the latches: of the engine STATUS shows only whether it is idle. -/
theorem regValue_setEngine (hidle : s.eng.st = .idle) (he : e.st = .idle) (r : RegName) :
    regValue { s with eng := e } r = regValue s r := by
  cases r with
  | status => simp only [regValue, statusWord, Busy, hidle, he]
  | _ => rfl

theorem storeReg_setEngine (r : RegName) (v : Word) :
    storeReg r v { s with eng := e } = { storeReg r v s with eng := e } := by
  cases r <;> rfl

theorem exec_regRead32_setEngine (hidle : s.eng.st = .idle) (he : e.st = .idle) (off : Word)
    (h : exec (.regRead32 off) s = .next t) : exec (.regRead32 off) { s with eng := e } = .next { t with eng := e } := by
  by_cases ha : Aligned4 off
  · rw [exec_regRead32_of_idle hidle ha] at h
    cases h
    rw [exec_regRead32_of_idle he ha, regValue_setEngine hidle he]
    rfl
  · cases h.symm.trans (exec_regRead32_of_misaligned ha s)
    exact exec_regRead32_of_misaligned ha _

theorem exec_regWrite32_setEngine (hidle : s.eng.st = .idle) (he : e.st = .idle) {off : Word} (hcmd : off ≠ 0x00#32)
    (v : Word) (h : exec (.regWrite32 off v) s = .next t) :
    exec (.regWrite32 off v) { s with eng := e } = .next { t with eng := e } := by
  by_cases ha : Aligned4 off
  case neg =>
    cases h.symm.trans (exec_regWrite32_of_misaligned ha v s)
    exact exec_regWrite32_of_misaligned ha v _
  by_cases hstatus : off = 0x04#32
  · subst hstatus
    cases h
    rfl
  · cases h.symm.trans (exec_regWrite32_of_idle hidle ha hcmd hstatus v)
    rw [exec_regWrite32_of_idle he ha hcmd hstatus, storeReg_setEngine]

/-- A BUF access asks the engine for no more than whether it is idle (R278). -/
theorem guard_setEngine (hidle : s.eng.st = .idle) (he : e.st = .idle) {p : Prop} [Decidable p] (isRead : Bool)
    {f : State → State} (hf : f { s with eng := e } = { f s with eng := e }) :
    (if ¬ p then refuse isRead { s with eng := e } else if Busy { s with eng := e } then refuse isRead { s with eng := e }
      else f { s with eng := e }) =
    { (if ¬ p then refuse isRead s else if Busy s then refuse isRead s else f s) with eng := e } := by
  by_cases hp : p
  · rw [guard_passed hp (not_not.2 hidle), guard_passed hp (not_not.2 (by exact he)), hf]
  · rw [if_pos hp, if_pos hp]
    rfl

/-- Every transaction but a CMD write does the same whatever the idle engine holds, and leaves the engine as it is. -/
theorem runTxn_setEngine (hidle : s.eng.st = .idle) (he : e.st = .idle) (hx : ¬ (x.kind = 0x9#4 ∧ x.off = 0x00#32))
    (h : runTxn x s = .next t) : runTxn x { s with eng := e } = .next { t with eng := e } := by
  obtain ⟨kind, off, v⟩ := x
  by_cases hkind : kind ∈ tableKinds
  case neg =>
    have hrefused (u : State) : runTxn ⟨kind, off, v⟩ u = .next (refuseKind kind u) := runTxn_refused (.inl hkind)
    cases h.symm.trans (hrefused s)
    exact hrefused _
  obtain rfl | rfl | rfl | rfl | rfl | rfl := eq_of_mem_tableKinds hkind
  · exact exec_regRead32_setEngine hidle he off h
  · exact exec_regWrite32_setEngine hidle he (fun hoff => hx ⟨rfl, hoff⟩) v h
  all_goals
    cases h
    exact congrArg _ (guard_setEngine hidle he _ rfl)

theorem eng_of_runTxn (hidle : s.eng.st = .idle) (hx : ¬ (x.kind = 0x9#4 ∧ x.off = 0x00#32))
    (h : runTxn x s = .next t) : t.eng = s.eng := by
  have hsame : t = { t with eng := s.eng } :=
    Host.Outcome.next.inj (h.symm.trans (runTxn_setEngine hidle hidle hx h))
  rw [hsame]

theorem runTxn_cmd_write (hidle : s.eng.st = .idle) (hkind : x.kind = 0x9#4) (hoff : x.off = 0x00#32) :
    runTxn x s = .next (accept x.wdata s) := by
  obtain ⟨kind, off, w⟩ := x
  subst hkind hoff
  exact exec_regWrite32_cmd_of_idle hidle w

/-- DONE and ERR change with the acceptance of a command and with no other transaction (R36, R37). -/
theorem runTxn_keepsReport_or_accepts (h : runTxn x s = .next t) :
    (t.status.done = s.status.done ∧ t.status.err = s.status.err) ∨ ∃ w, t = accept w s := by
  obtain ⟨_, rfl⟩ | ⟨_, rfl⟩ | ⟨_, rfl⟩ | ⟨w, rfl⟩ | ⟨_, rfl⟩ | ⟨_, r, v, rfl⟩ | ⟨_, _, _, _, rfl⟩ := runTxn_cases h
  case inr.inr.inr.inl =>
    obtain ⟨_, e⟩ | ⟨_, e⟩ := issue_cases w s <;> rw [e]
    · exact .inl ⟨rfl, rfl⟩
    · exact .inr ⟨w, rfl⟩
  case inr.inr.inr.inr.inr.inl =>
    obtain e | e | e | e | e | e := storeReg_cases r v s <;> rw [e]
    all_goals exact .inl ⟨rfl, rfl⟩
  all_goals exact .inl ⟨rfl, rfl⟩

end IdleEngine

/-- Settles O50: while busy the host reaches none of the three; while idle the one transaction that reaches the engine
is a CMD write, and any other leaves DONE and ERR with it. -/
theorem hostNeverFakesAResult : Obligations.HostNeverFakesAResult := by
  intro s t x h
  by_cases hb : Busy s
  case pos =>
    obtain ⟨_, _, _, _, rfl⟩ := runTxn_of_busy hb h
    exact .inl ⟨rfl, rfl, rfl⟩
  have hidle : s.eng.st = .idle := not_not.1 hb
  by_cases hx : x.kind = 0x9#4 ∧ x.off = 0x00#32
  case pos =>
    cases h.symm.trans (runTxn_cmd_write hidle hx.1 hx.2)
    exact .inr ⟨hidle, hx.1, hx.2, rfl, rfl⟩
  have heng : t.eng = s.eng := eng_of_runTxn hidle hx h
  obtain ⟨hdone, herr⟩ | ⟨w, rfl⟩ := runTxn_keepsReport_or_accepts h
  · exact .inl ⟨heng, hdone, herr⟩
  · exact absurd ((congrArg Engine.st heng).trans hidle) (firstState_ne_idle w)

/-- Settles O53: a CMD write latches the operands anew, and any other transaction reads no latch; a merged run carries
the working latches through. -/
theorem idleLatchesAreUnobservable : Obligations.IdleLatchesAreUnobservable := by
  refine ⟨fun s t e x hidle he h => ?txn, fun s t u v hst hu hv => ?run⟩
  case txn =>
    by_cases hx : x.kind = 0x9#4 ∧ x.off = 0x00#32
    case pos =>
      cases h.symm.trans (runTxn_cmd_write hidle hx.1 hx.2)
      exact ⟨_, runTxn_cmd_write he hx.1 hx.2, rfl, rfl, fun _ => ⟨rfl, rfl, rfl⟩⟩
    case neg =>
      have hidle' : t.eng.st = .idle := by rw [eng_of_runTxn hidle hx h, hidle]
      exact ⟨_, runTxn_setEngine hidle he hx h, rfl, he.trans hidle'.symm, fun hb => absurd hidle' hb⟩
  case run =>
    obtain ⟨i, acc, len, rx, rfl⟩ := (sameButLatches_iff s t).1 hst
    by_cases hb : Busy s
    case pos =>
      cases hv.symm.trans (runCommand_moveEngine hb hb i acc len rx hu)
      exact (sameButLatches_iff _ _).2 ⟨i, acc, len, rx, rfl⟩
    case neg =>
      have hidle (w : State) (hw : w.eng.st = s.eng.st) : runCommand w = .next w := if_neg (by rwa [Busy, hw])
      cases hu.symm.trans (hidle s rfl)
      cases hv.symm.trans (hidle _ rfl)
      exact hst

end Sys2Proof.Machine

/-! What every row and every merged run of the engine does, in any state: it keeps the host's registers (R38 to R41),
completes in one step (R245), and, under the invariant, comes to an end (R283); and what CONSUMED says then (R47). -/

namespace Sys2Proof.Machine

/-! ## Rows in any state -/

/-- Registers that a running command may leave: ADDR and COUNT are the host's, and CRC_ACC is written by the CRC
commands alone (R38, R39, R48). -/
structure KeepsOperands (s : State) (r : Regs) : Prop where
  addr : r.addr = s.regs.addr
  count : r.count = s.regs.count
  crcAcc : EngineInv s → s.eng.op ≠ 0x1#32 → s.eng.op ≠ 0x2#32 → r.crcAcc = s.regs.crcAcc

/-- A row completes, or leaves the engine busy and STATUS as it is; either may write BUF and result registers first. -/
inductive RowOutcome (s : State) : State → Prop
  | completes (c : ErrCode) (r : Regs) (hr : KeepsOperands s r) : RowOutcome s (complete c { s with regs := r })
  | runs (e : Engine) (r : Regs) (m : Memory) (hb : e.st ≠ .idle) (hr : KeepsOperands s r) :
      RowOutcome s { s with eng := e, regs := r, buf := m }

section Rows

variable {s : State}

theorem KeepsOperands.refl (s : State) : KeepsOperands s s.regs := ⟨rfl, rfl, fun _ _ _ => rfl⟩

theorem RowOutcome.stays (hb : Busy s) : RowOutcome s s := .runs s.eng s.regs s.buf hb (.refl s)

/-- A row that moves the engine on and writes no register. -/
theorem RowOutcome.moves {e : Engine} {m : Memory} (hb : e.st ≠ .idle) : RowOutcome s { s with eng := e, buf := m } :=
  .runs e s.regs m hb (.refl s)

theorem RowOutcome.fails (c : ErrCode) : RowOutcome s (failRecord c s) :=
  .completes c { s.regs with consumed := 0#32 } ⟨rfl, rfl, fun _ _ _ => rfl⟩

theorem rowFRun_outcome (hb : Busy s) : RowOutcome s (rowFRun s) := by
  unfold rowFRun
  split
  · rename_i hop
    exact .completes _ _ ⟨rfl, rfl, fun _ hne _ => absurd hop hne⟩
  split
  · split
    · exact .completes _ s.regs (.refl s)
    · exact .moves nofun
  · exact .stays hb

/-- In F_LOOP the invariant says that the command is CRC_FEED, which may write CRC_ACC. -/
theorem rowFLoop_outcome (hst : s.eng.st = .fLoop) : RowOutcome s (rowFLoop s) := by
  have hb : Busy s := busy_of_st hst nofun
  unfold rowFLoop
  split
  · exact .moves hb
  split
  · exact .completes _ _ ⟨rfl, rfl, fun h _ hne => absurd ((engineInv_fLoop hst).1 h).1 hne⟩
  · exact .stays hb

theorem rowEChk_outcome : RowOutcome s (rowEChk s) := by
  unfold rowEChk
  split
  · exact .fails _
  · exact .moves nofun

theorem rowEHdr_outcome (hb : Busy s) : RowOutcome s (rowEHdr s) := by
  unfold rowEHdr
  split
  · exact .moves hb
  split
  · exact .moves hb
  split
  · exact .moves nofun
  · exact .stays hb

theorem rowEBody_outcome (hb : Busy s) : RowOutcome s (rowEBody s) := by
  unfold rowEBody
  split
  · exact .moves hb
  split
  · exact .moves nofun
  · exact .stays hb

theorem rowETrl_outcome (hb : Busy s) : RowOutcome s (rowETrl s) := by
  unfold rowETrl
  split
  · exact .moves hb
  split
  · exact .completes _ _ ⟨rfl, rfl, fun _ _ _ => rfl⟩
  · exact .stays hb

theorem rowDChk_outcome : RowOutcome s (rowDChk s) := by
  unfold rowDChk
  split
  · exact .fails _
  split
  · exact .fails _
  · exact .moves nofun

theorem rowDHdr_outcome (hb : Busy s) : RowOutcome s (rowDHdr s) := by
  unfold rowDHdr
  split
  · exact .moves hb
  split
  · exact .runs _ _ _ hb ⟨rfl, rfl, fun _ _ _ => rfl⟩
  split
  · exact .runs _ _ _ nofun ⟨rfl, rfl, fun _ _ _ => rfl⟩
  · exact .stays hb

theorem rowDLen_outcome : RowOutcome s (rowDLen s) := by
  unfold rowDLen
  split
  · exact .fails _
  · exact .moves nofun

theorem rowDBody_outcome (hb : Busy s) : RowOutcome s (rowDBody s) := by
  unfold rowDBody
  split
  · exact .moves hb
  split
  · exact .moves nofun
  · exact .stays hb

theorem rowDTrl_outcome (hb : Busy s) : RowOutcome s (rowDTrl s) := by
  unfold rowDTrl
  split
  · exact .moves hb
  split
  · exact .runs _ _ _ nofun ⟨rfl, rfl, fun _ _ _ => rfl⟩
  · exact .stays hb

theorem rowDCmp_outcome : RowOutcome s (rowDCmp s) := by
  unfold rowDCmp
  split
  · exact .completes _ _ ⟨rfl, rfl, fun _ _ _ => rfl⟩
  · exact .fails _

theorem engineRow_of_idle (h : s.eng.st = .idle) : engineRow s = s := engineRows_of_idle h 1

theorem engineRow_outcome (hb : Busy s) : RowOutcome s (engineRow s) := by
  unfold engineRow
  split <;> rename_i hst
  · exact absurd hst hb
  · exact .completes _ s.regs (.refl s)
  · exact .completes _ s.regs (.refl s)
  · exact rowFRun_outcome hb
  · exact rowFLoop_outcome hst
  · exact rowEChk_outcome
  · exact rowEHdr_outcome hb
  · exact rowEBody_outcome hb
  · exact rowETrl_outcome hb
  · exact rowDChk_outcome
  · exact rowDHdr_outcome hb
  · exact rowDLen_outcome
  · exact rowDBody_outcome hb
  · exact rowDTrl_outcome hb
  · exact rowDCmp_outcome

end Rows

/-! ## One row completes (R245) -/

/-- Settles O47: a row that completes is `complete`, which sets DONE and no sticky bit; any other keeps STATUS. -/
theorem completionIsOneStep : Obligations.CompletionIsOneStep := by
  intro s hb
  have hrow : RowOutcome s (engineRow s) := engineRow_outcome hb
  generalize engineRow s = t at hrow
  cases hrow with
  | completes c r hr => exact ⟨fun hb' => absurd rfl hb', fun _ => ⟨rfl, rfl, rfl⟩⟩
  | runs e r m hb' hr => exact ⟨fun _ => rfl, fun hidle => absurd hidle hb'⟩

/-! ## The host's operands (R38 to R41, R48) -/

/-- What the engine, by a row or a merged run, leaves as it is. -/
structure EngineFrame (s t : State) : Prop where
  regs : KeepsOperands s t.regs
  cmdOvr : t.status.cmdOvr = s.status.cmdOvr
  busErr : t.status.busErr = s.status.busErr
  bufBytes : t.bufBytes = s.bufBytes
  rdata : t.rdata = s.rdata
  schedule : t.schedule = s.schedule
  epoch : t.epoch = s.epoch
  draws : t.draws = s.draws

section Frame

variable {s t : State}

theorem EngineFrame.refl (s : State) : EngineFrame s s := ⟨.refl s, rfl, rfl, rfl, rfl, rfl, rfl, rfl⟩

theorem RowOutcome.frame (h : RowOutcome s t) : EngineFrame s t := by
  cases h with
  | completes c r hr => exact ⟨hr, rfl, rfl, rfl, rfl, rfl, rfl, rfl⟩
  | runs e r m hb hr => exact ⟨hr, rfl, rfl, rfl, rfl, rfl, rfl, rfl⟩

theorem engineFrame_engineRow (s : State) : EngineFrame s (engineRow s) := by
  by_cases hb : Busy s
  · exact (engineRow_outcome hb).frame
  · rw [engineRow_of_idle (not_not.1 hb)]
    exact .refl s

/-- A completion after writes to registers that are no operands. -/
theorem engineFrame_complete (c : ErrCode) {r : Regs} (hr : KeepsOperands s r) :
    EngineFrame s (complete c { s with regs := r }) :=
  ⟨hr, rfl, rfl, rfl, rfl, rfl, rfl, rfl⟩

theorem engineFrame_failRecord (c : ErrCode) {r : Regs} (hr : KeepsOperands s r) :
    EngineFrame s (failRecord c { s with regs := r }) :=
  ⟨⟨hr.addr, hr.count, hr.crcAcc⟩, rfl, rfl, rfl, rfl, rfl, rfl, rfl⟩

theorem engineFrame_crcFeedResult (hop : s.eng.op = 0x2#32) : EngineFrame s (crcFeedResult s) := by
  unfold crcFeedResult
  split
  · exact engineFrame_complete _ ⟨rfl, rfl, fun _ _ hne => absurd hop hne⟩
  · exact engineFrame_complete _ (.refl s)

theorem engineFrame_encodeResult : EngineFrame s (encodeResult s) := by
  by_cases hfit : FitsBuf s (engA s) (12 + engN s)
  · rw [encodeResult_of_fits hfit]
    refine ⟨⟨rfl, rfl, fun _ _ _ => rfl⟩, ?_, ?_, ?_, ?_, ?_, ?_, ?_⟩
    all_goals simp
  · rw [encodeResult_of_range hfit]
    exact engineFrame_failRecord _ (.refl s)

theorem engineFrame_decodeResult : EngineFrame s (decodeResult s) := by
  unfold decodeResult
  split
  · exact engineFrame_failRecord _ (.refl s)
  split
  · exact engineFrame_failRecord _ (.refl s)
  dsimp only
  split
  · exact engineFrame_failRecord _ ⟨rfl, rfl, fun _ _ _ => rfl⟩
  split
  · exact engineFrame_complete _ ⟨rfl, rfl, fun _ _ _ => rfl⟩
  · exact engineFrame_failRecord _ ⟨rfl, rfl, fun _ _ _ => rfl⟩

theorem engineFrame_runCommand (h : runCommand s = .next t) : EngineFrame s t := by
  obtain ⟨_, rfl⟩ | ⟨_, hrun⟩ := runCommand_cases h
  · exact .refl _
  obtain ⟨_, rfl⟩ | ⟨hop, rfl⟩ | ⟨hop, rfl⟩ | ⟨_, rfl⟩ | ⟨_, rfl⟩ | ⟨_, rfl⟩ := hrun
  · exact engineFrame_complete _ (.refl s)
  · exact engineFrame_complete _ ⟨rfl, rfl, fun _ hne _ => absurd hop hne⟩
  · exact engineFrame_crcFeedResult hop
  · exact engineFrame_encodeResult
  · exact engineFrame_decodeResult
  · exact engineFrame_complete _ (.refl s)

end Frame

/-- Settles O51: the frame of a row and the frame of a merged run. -/
theorem engineLeavesHostOperandsAlone : Obligations.EngineLeavesHostOperandsAlone := by
  intro s t ht
  have hframe : EngineFrame s t := by
    obtain rfl | ht := ht
    · exact engineFrame_engineRow s
    · exact engineFrame_runCommand ht
  obtain ⟨⟨haddr, hcount, hcrcAcc⟩, hcmdOvr, hbusErr, hbufBytes, hrdata, hschedule, hepoch, hdraws⟩ := hframe
  exact ⟨haddr, hcount, hcmdOvr, hbusErr, hbufBytes, hrdata, hschedule, hepoch, hdraws, hcrcAcc⟩

/-! ## Every command comes to an end (R283) -/

/-- How many states of its machine an engine has before it, its own included. -/
def statesLeft : EngSt → Nat
  | .idle => 0
  | .xNop | .xBad | .fLoop | .eTrl | .dCmp => 1
  | .fRun | .eBody | .dTrl => 2
  | .eHdr | .dBody => 3
  | .eChk | .dLen => 4
  | .dHdr => 5
  | .dChk => 6

/-- The engine goes on to a later state of its machine, or on by a byte in the same state. -/
def Advances (s t : State) : Prop :=
  statesLeft t.eng.st < statesLeft s.eng.st ∨ (t.eng.st = s.eng.st ∧ t.eng.i = s.eng.i + 1)

section Progress

variable {s : State}

theorem Advances.toState {t : State} {st st' : EngSt} (hst : s.eng.st = st) (hst' : t.eng.st = st')
    (h : statesLeft st' < statesLeft st) : Advances s t := .inl (by rwa [hst, hst'])

theorem Advances.completes (hb : Busy s) (c : ErrCode) {u : State} : Advances s (complete c u) := by
  refine .inl (?_ : 0 < statesLeft s.eng.st)
  cases hst : s.eng.st with
  | idle => exact absurd hst hb
  | _ => decide

theorem advances_rowFRun (hst : s.eng.st = .fRun) (h : EngineInv s) : Advances s (rowFRun s) := by
  have hb : Busy s := busy_of_st hst nofun
  have hop : s.eng.op = 0x1#32 ∨ s.eng.op = 0x2#32 := by simpa only [EngineInv, hst] using h
  unfold rowFRun
  split
  · exact .completes hb _
  split
  · split
    · exact .completes hb _
    · exact .toState (st' := .fLoop) hst rfl (by decide)
  · exact absurd hop (by simp [*])

/-- In a state that counts bytes up to a bound, the rows for an index below it and at it are all that can apply. -/
theorem advances_rowFLoop (hst : s.eng.st = .fLoop) (h : EngineInv s) : Advances s (rowFLoop s) := by
  obtain ⟨_, _, hi⟩ := (engineInv_fLoop hst).1 h
  unfold rowFLoop
  split_ifs
  · exact .inr ⟨rfl, rfl⟩
  · exact .completes (busy_of_st hst nofun) _
  · omega

theorem advances_rowEChk (hst : s.eng.st = .eChk) : Advances s (rowEChk s) := by
  unfold rowEChk
  split
  · exact .completes (busy_of_st hst nofun) _
  · exact .toState (st' := .eHdr) hst rfl (by decide)

theorem advances_rowEHdr (hst : s.eng.st = .eHdr) (h : EngineInv s) : Advances s (rowEHdr s) := by
  obtain ⟨_, _, hi⟩ := (engineInv_eHdr hst).1 h
  unfold rowEHdr
  split_ifs
  · exact .inr ⟨rfl, rfl⟩
  · exact .inr ⟨rfl, rfl⟩
  · exact .toState (st' := .eBody) hst rfl (by decide)
  · omega

theorem advances_rowEBody (hst : s.eng.st = .eBody) (h : EngineInv s) : Advances s (rowEBody s) := by
  obtain ⟨_, _, hi⟩ := (engineInv_eBody hst).1 h
  unfold rowEBody
  split_ifs
  · exact .inr ⟨rfl, rfl⟩
  · exact .toState (st' := .eTrl) hst rfl (by decide)
  · omega

theorem advances_rowETrl (hst : s.eng.st = .eTrl) (h : EngineInv s) : Advances s (rowETrl s) := by
  obtain ⟨_, _, hi⟩ := (engineInv_eTrl hst).1 h
  unfold rowETrl
  split_ifs
  · exact .inr ⟨rfl, rfl⟩
  · exact .completes (busy_of_st hst nofun) _
  · omega

theorem advances_rowDChk (hst : s.eng.st = .dChk) : Advances s (rowDChk s) := by
  have hb : Busy s := busy_of_st hst nofun
  unfold rowDChk
  split
  · exact .completes hb _
  split
  · exact .completes hb _
  · exact .toState (st' := .dHdr) hst rfl (by decide)

theorem advances_rowDHdr (hst : s.eng.st = .dHdr) (h : EngineInv s) : Advances s (rowDHdr s) := by
  obtain ⟨_, _, _, hi⟩ := (engineInv_dHdr hst).1 h
  unfold rowDHdr
  split_ifs
  · exact .inr ⟨rfl, rfl⟩
  · exact .inr ⟨rfl, rfl⟩
  · exact .toState (st' := .dLen) hst rfl (by decide)
  · omega

theorem advances_rowDLen (hst : s.eng.st = .dLen) : Advances s (rowDLen s) := by
  unfold rowDLen
  split
  · exact .completes (busy_of_st hst nofun) _
  · exact .toState (st' := .dBody) hst rfl (by decide)

theorem advances_rowDBody (hst : s.eng.st = .dBody) (h : EngineInv s) : Advances s (rowDBody s) := by
  obtain ⟨_, _, _, hi⟩ := (engineInv_dBody hst).1 h
  unfold rowDBody
  split_ifs
  · exact .inr ⟨rfl, rfl⟩
  · exact .toState (st' := .dTrl) hst rfl (by decide)
  · omega

theorem advances_rowDTrl (hst : s.eng.st = .dTrl) (h : EngineInv s) : Advances s (rowDTrl s) := by
  obtain ⟨_, _, _, hi⟩ := (engineInv_dTrl hst).1 h
  unfold rowDTrl
  split_ifs
  · exact .inr ⟨rfl, rfl⟩
  · exact .toState (st' := .dCmp) hst rfl (by decide)
  · omega

theorem advances_rowDCmp (hst : s.eng.st = .dCmp) : Advances s (rowDCmp s) := by
  have hb : Busy s := busy_of_st hst nofun
  unfold rowDCmp
  split
  · exact .completes hb _
  · exact .completes hb _

/-- Under the invariant no row stands still: an index that no row of its state takes cannot be reached. -/
theorem advances_engineRow (h : EngineInv s) (hb : Busy s) : Advances s (engineRow s) := by
  unfold engineRow
  split <;> rename_i hst
  · exact absurd hst hb
  · exact .completes hb _
  · exact .completes hb _
  · exact advances_rowFRun hst h
  · exact advances_rowFLoop hst h
  · exact advances_rowEChk hst
  · exact advances_rowEHdr hst h
  · exact advances_rowEBody hst h
  · exact advances_rowETrl hst h
  · exact advances_rowDChk hst
  · exact advances_rowDHdr hst h
  · exact advances_rowDLen hst
  · exact advances_rowDBody hst h
  · exact advances_rowDTrl hst h
  · exact advances_rowDCmp hst

/-- A bound on the rows that a command has left: the byte index never passes 2^32 (R54). -/
def rowsLeft (s : State) : Nat := statesLeft s.eng.st * 4294967297 + (4294967296 - s.eng.i)

theorem rowsLeft_lt_of_advances {t : State} (h : Advances s t) (hi : t.eng.i ≤ 4294967296) :
    rowsLeft t < rowsLeft s := by
  unfold rowsLeft
  obtain hlater | ⟨hst, hbyte⟩ := h
  · omega
  · rw [hst, hbyte]
    omega

/-- By induction on the rows left. -/
theorem exists_engineRows_completed (h : s.Inv) (hb : Busy s) :
    ∃ k, 1 ≤ k ∧ (engineRows k s).eng.st = .idle ∧ (engineRows k s).status.done = true := by
  induction hn : rowsLeft s using Nat.strong_induction_on generalizing s with
  | _ n ih =>
    by_cases hb' : Busy (engineRow s)
    · have hnext : (engineRow s).Inv := inv_engineRow h
      have hless : rowsLeft (engineRow s) < n :=
        hn ▸ rowsLeft_lt_of_advances (advances_engineRow h.engine hb) hnext.index
      obtain ⟨k, _, hdone⟩ := ih _ hless hnext hb' rfl
      exact ⟨k + 1, Nat.succ_pos k, hdone⟩
    · have hidle : (engineRow s).eng.st = .idle := not_not.1 hb'
      exact ⟨1, le_rfl, hidle, ((completionIsOneStep s hb).2 hidle).1⟩

theorem step_of_empty_schedule (h : s.schedule = []) : step s = .next (engineRow s) := by
  rw [step, h]

/-- With nothing scheduled, `k` steps are `k` rows (R283): a row schedules nothing. -/
theorem run_of_empty_schedule (k : Nat) (h : s.schedule = []) :
    Host.Core.run Sys2Proof.core k s = .next (engineRows k s) := by
  induction k generalizing s with
  | zero => rfl
  | succ k ih =>
    have hstep : Sys2Proof.core.step s = .next (engineRow s) := step_of_empty_schedule h
    simp only [Host.Core.run, hstep]
    exact ih ((engineFrame_engineRow s).schedule.trans h)

end Progress

/-- Settles O46: the steps are rows, and the rows come to an end. -/
theorem busyMachineCompletes : Obligations.BusyMachineCompletes := by
  intro s h hb hschedule
  obtain ⟨k, hk, hidle, hdone⟩ := exists_engineRows_completed h hb
  exact ⟨k, _, hk, run_of_empty_schedule k hschedule, hidle, hdone⟩

/-! ## CONSUMED (R47) -/

/-- CONSUMED is nonzero exactly where ERR is NONE. -/
def MarksSuccess (t : State) : Prop := t.regs.consumed ≠ 0#32 ↔ t.status.err = .noErr

section Consumed

variable {s : State}

theorem marksSuccess_failRecord {c : ErrCode} (hc : c ≠ .noErr) (u : State) : MarksSuccess (failRecord c u) :=
  iff_of_false (fun h => h rfl) hc

/-- A record inside a legal BUF is shorter than 2^32, so its size is no 0 modulo 2^32. -/
theorem ofNat_recordSize_ne_zero {n : Nat} (hlegal : legalBufBytes s.bufBytes = true) (hfit : 12 + n ≤ s.bufBytes) :
    BitVec.ofNat 32 (12 + n) ≠ 0#32 := by
  obtain ⟨_, _, hmax⟩ := (legalBufBytes_iff _).1 hlegal
  rw [← BitVec.toNat_ne_iff_ne, BitVec.toNat_ofNat, BitVec.toNat_zero]
  omega

theorem marksSuccess_encodeResult (hlegal : legalBufBytes s.bufBytes = true) : MarksSuccess (encodeResult s) := by
  by_cases hfit : FitsBuf s (engA s) (12 + engN s)
  · rw [encodeResult_of_fits hfit]
    exact iff_of_true (ofNat_recordSize_ne_zero hlegal (by omega)) rfl
  · rw [encodeResult_of_range hfit]
    exact marksSuccess_failRecord (by decide) s

theorem marksSuccess_decodeResult (hlegal : legalBufBytes s.bufBytes = true) : MarksSuccess (decodeResult s) := by
  by_cases hfit : FitsBuf s (engA s) (engN s)
  case neg => rw [decodeResult_of_range hfit]; exact marksSuccess_failRecord (by decide) _
  by_cases hmin : 12 ≤ engN s
  case neg => rw [decodeResult_of_noHeader hfit (not_le.1 hmin)]; exact marksSuccess_failRecord (by decide) _
  by_cases hwhole : 12 + (declaredLen s).toNat ≤ engN s
  case neg => rw [decodeResult_of_truncated hfit hmin (not_le.1 hwhole)]; exact marksSuccess_failRecord (by decide) _
  by_cases hcrc : declaredCrc s = expectedCrc s
  case neg => rw [decodeResult_of_mismatch ⟨hfit, hwhole⟩ hcrc]; exact marksSuccess_failRecord (by decide) _
  rw [decodeResult_of_match ⟨hfit, hwhole⟩ hcrc]
  exact iff_of_true (ofNat_recordSize_ne_zero hlegal (by omega)) rfl

end Consumed

/-- Settles O39: a failure writes 0, a success the record's size. -/
theorem consumedMarksSuccess : Obligations.ConsumedMarksSuccess := by
  intro s t i hlegal hi ht
  obtain rfl | rfl := hi
  · cases ht
    exact marksSuccess_encodeResult hlegal
  · cases ht
    exact marksSuccess_decodeResult hlegal

end Sys2Proof.Machine

/-! The step by the next entry of the schedule (R91, R282), and the state after reset (R270, R271). -/

namespace Sys2Proof.Machine

/-! ## The step, entry by entry -/

section Step

variable {s : State} {rest : List Event}

theorem step_txn {x : Txn} (h : s.schedule = .txn x :: rest) : step s = runTxn x { s with schedule := rest } := by
  rw [step, h]

theorem step_engineRun (h : s.schedule = .engineRun :: rest) : step s = runCommand { s with schedule := rest } := by
  rw [step, h]

theorem step_engineStep (h : s.schedule = .engineStep :: rest) :
    step s = .next (engineRow { s with schedule := rest }) := by
  rw [step, h]

theorem step_reset (h : s.schedule = .reset :: rest) : step s = .next (resetEvent { s with schedule := rest }) := by
  rw [step, h]

theorem runTxn_of_decodes {x : Txn} {i : Instr} (h : decodeTxn x = .ok i) (s : State) : runTxn x s = exec i s := by
  rw [runTxn, h]

theorem runCommand_of_idle (h : s.eng.st = .idle) : runCommand s = .next s := if_neg (not_not.2 h)

end Step

/-- Settles O5: one equation for each kind of entry, then one for each way its bits can decode. -/
theorem stepRunsDecodedInstruction : Obligations.StepRunsDecodedInstruction := by
  intro s rest
  refine ⟨fun x hs => ?txn, fun hs => ?engineRun, fun hs => ?engineStep, fun hs => step_reset hs, fun hs => ?nothing⟩
  case txn =>
    refine ⟨step_txn hs, fun i hi => (step_txn hs).trans (runTxn_of_decodes hi _), fun k hk => ?_⟩
    rw [step_txn hs, runTxn_of_not_decoded hk, refuseKind_eq]
  case engineRun =>
    exact ⟨step_engineRun hs, fun i hb hi => (step_engineRun hs).trans (runCommand_of_decodes hb hi),
      fun w hb hw => (step_engineRun hs).trans (runCommand_of_reserved hb hw),
      fun hidle => (step_engineRun hs).trans (runCommand_of_idle hidle)⟩
  case engineStep =>
    exact ⟨step_engineStep hs, fun hidle => (step_engineStep hs).trans (congrArg _ (engineRow_of_idle hidle))⟩
  case nothing =>
    exact ⟨step_of_empty_schedule hs,
      fun hidle => (step_of_empty_schedule hs).trans (congrArg _ (engineRow_of_idle hidle))⟩

/-! ## Reset -/

theorem statusWord_resetEvent (s : State) : statusWord (resetEvent s) = 0x00000000#32 := by
  rw [statusWord_of_fields (s := resetEvent s) (busy := false) (done := false) (err := .noErr) rfl rfl rfl,
    resetEvent_status]
  decide

theorem tagFlagsOf_zero : tagFlagsOf 0#32 = 0x00000017#32 := by decide

/-- Settles O7: the state after the event is `resetEvent`, whose registers are constants and whose BUF lists nothing. -/
theorem resetEventRestoresEveryRegister : Obligations.ResetEventRestoresEveryRegister := fun s rest h =>
  ⟨resetEvent { s with schedule := rest }, step_reset h, rfl, rfl, rfl, rfl, rfl, rfl, rfl, rfl,
    statusWord_resetEvent _, rfl, tagFlagsOf_zero, BitVec.xor_self, rfl, rfl, fun _ => rfl⟩

/-- Settles O8: the block is idle after reset, so each read answers the value of the register at its offset. -/
theorem resetRegisterReads : Obligations.ResetRegisterReads := by
  intro off v h
  simp only [List.mem_cons, List.not_mem_nil, or_false, Prod.mk.injEq] at h
  rcases h with ⟨rfl, rfl⟩ | ⟨rfl, rfl⟩ | ⟨rfl, rfl⟩ | ⟨rfl, rfl⟩ | ⟨rfl, rfl⟩ | ⟨rfl, rfl⟩ | ⟨rfl, rfl⟩ | ⟨rfl, rfl⟩ |
    ⟨rfl, rfl⟩ | ⟨rfl, rfl⟩ | ⟨rfl, rfl⟩ | ⟨rfl, rfl⟩ | ⟨rfl, rfl⟩
  all_goals exact exec_regRead32_of_idle rfl (by decide)

/-- Whatever the implementation's index, the size of BUF is legal (R7). -/
theorem legalBufBytes_config : legalBufBytes Config.bufBytes = true := by
  rw [legalBufBytes_iff, Config.bufBytes]
  omega

/-- Settles O9: nothing is written and nothing runs, so only the size of BUF and the drawn index have a bound to meet. -/
theorem resetHasInvariant : Obligations.ResetHasInvariant where
  legal := legalBufBytes_config
  canonical := reset_buf_wf
  inside := fun _ hc => (nomatch hc)
  index := Nat.le_of_lt_succ (Nat.mod_lt _ (by decide))
  engine := trivial
  busyClear := fun hb => absurd rfl hb
  errDone := fun _ => rfl
  latched := fun hb => absurd rfl hb

end Sys2Proof.Machine
